-- ==== Sys2Proof/Word.lean ====
section
/-! DEFINITION. The widths of the spec's words: bytes, register addresses, command words and the two wide ports
(spec 10_state R11, 20_memory R30, 30_encoding R60). -/
namespace Sys2Proof

/-- A byte, 8 bits (00_scope section 5). -/
abbrev Byte := BitVec 8

/-- A register address, 8 bits (20_memory R30). -/
abbrev Addr := BitVec 8

/-- A command word, 16 bits (30_encoding R60). -/
abbrev CmdWord := BitVec 16

/-- The 64-bit block ports `blk_in` and `blk_out` (10_state R11). -/
abbrev BlockPort := BitVec 64

/-- The 184-bit text port `txt_out`, 23 bytes (10_state R11). -/
abbrev TextPort := BitVec 184

end Sys2Proof
end

