-- ==== Sys2Proof/Syntax.lean ====
section
/-! DEFINITION. The instruction set: one constructor per row of the opcode map (spec 30_encoding R63). The operand of
a row that takes an immediate is `IMM`, used as it stands (R64). -/
namespace Sys2Proof

/-- The 24 operations of the opcode map (30_encoding R63), in its order. -/
inductive Instr where
  | byte2bcd
  | bcd2byte
  | enctime (mode : Byte)
  | dectime (mode : Byte)
  | packdrive (opt : Byte)
  | packloadcap (opt : Byte)
  | packhourmode (mode : Byte)
  | pack100th (opt : Byte)
  | packbatsw (opt : Byte)
  | unpackdrive
  | unpackloadcap
  | unpackhourmode
  | unpack100th
  | unpackbatsw
  | setdrive (opt : Byte)
  | setloadcap (opt : Byte)
  | sethourmode (mode : Byte)
  | set100th (opt : Byte)
  | setbatsw (opt : Byte)
  | getdrive
  | getloadcap
  | gethourmode
  | get100th
  | getbatsw
  deriving DecidableEq, Repr

end Sys2Proof
end

