-- ==== Sys2Proof/Decode.lean ====
section
/-! DEFINITION. The command word (spec 30_encoding R60 to R67): the decoder, total on all 65,536 words, rejecting a
reserved word by the reason R66 gives; the encoder; the rows of the opcode map R63 as match and mask; and the host's
`decodeTableWord`. A command is the value of port `cmd`, not bytes of a memory, so no byte order enters (log 23). -/
namespace Sys2Proof

/-- Why a command word is reserved (30_encoding R66). -/
inductive Reserved where
  /-- `GRP` is 6 to 15. -/
  | group
  /-- `GRP` 0 or 1 with `FN` 2 to 15, or `GRP` 2 to 5 with `FN` 5 to 15. -/
  | function
  /-- `GRP` 0, 3 or 5 with a non-zero `IMM`. -/
  | immediate
  deriving DecidableEq, Repr

/-- `GRP`, bits 15 to 12 (30_encoding R60). -/
def cmdGrp (w : CmdWord) : BitVec 4 := w.extractLsb' 12 4

/-- `FN`, bits 11 to 8 (30_encoding R60). -/
def cmdFn (w : CmdWord) : BitVec 4 := w.extractLsb' 8 4

/-- `IMM`, bits 7 to 0 (30_encoding R60). -/
def cmdImm (w : CmdWord) : Byte := w.extractLsb' 0 8

/-- An operation that takes no immediate: `IMM` must be 0x00, else the word is reserved (30_encoding R64, R66). -/
def withoutImm (imm : Byte) (i : Instr) : Except Reserved Instr :=
  if imm = 0 then .ok i else .error .immediate

/-- The opcode map by group and function (30_encoding R61 to R63). -/
def decodeFields (grp fn : Nat) (imm : Byte) : Except Reserved Instr :=
  match grp, fn with
  | 0, 0 => withoutImm imm .byte2bcd
  | 0, 1 => withoutImm imm .bcd2byte
  | 1, 0 => .ok (.enctime imm)
  | 1, 1 => .ok (.dectime imm)
  | 2, 0 => .ok (.packdrive imm)
  | 2, 1 => .ok (.packloadcap imm)
  | 2, 2 => .ok (.packhourmode imm)
  | 2, 3 => .ok (.pack100th imm)
  | 2, 4 => .ok (.packbatsw imm)
  | 3, 0 => withoutImm imm .unpackdrive
  | 3, 1 => withoutImm imm .unpackloadcap
  | 3, 2 => withoutImm imm .unpackhourmode
  | 3, 3 => withoutImm imm .unpack100th
  | 3, 4 => withoutImm imm .unpackbatsw
  | 4, 0 => .ok (.setdrive imm)
  | 4, 1 => .ok (.setloadcap imm)
  | 4, 2 => .ok (.sethourmode imm)
  | 4, 3 => .ok (.set100th imm)
  | 4, 4 => .ok (.setbatsw imm)
  | 5, 0 => withoutImm imm .getdrive
  | 5, 1 => withoutImm imm .getloadcap
  | 5, 2 => withoutImm imm .gethourmode
  | 5, 3 => withoutImm imm .get100th
  | 5, 4 => withoutImm imm .getbatsw
  | 0, _ => .error .function
  | 1, _ => .error .function
  | 2, _ => .error .function
  | 3, _ => .error .function
  | 4, _ => .error .function
  | 5, _ => .error .function
  | _, _ => .error .group

/-- The instruction a command word selects, or why it is reserved (30_encoding R63, R66). -/
def decode (w : CmdWord) : Except Reserved Instr :=
  decodeFields (cmdGrp w).toNat (cmdFn w).toNat (cmdImm w)

/-- The word `GRP`, `FN`, `IMM` (30_encoding R60). -/
def assembleWord (grp fn : BitVec 4) (imm : Byte) : CmdWord :=
  grp ++ fn ++ imm

/-- The command word of an instruction (30_encoding R63). -/
def encode : Instr → CmdWord
  | .byte2bcd => assembleWord 0 0 0
  | .bcd2byte => assembleWord 0 1 0
  | .enctime mode => assembleWord 1 0 mode
  | .dectime mode => assembleWord 1 1 mode
  | .packdrive opt => assembleWord 2 0 opt
  | .packloadcap opt => assembleWord 2 1 opt
  | .packhourmode mode => assembleWord 2 2 mode
  | .pack100th opt => assembleWord 2 3 opt
  | .packbatsw opt => assembleWord 2 4 opt
  | .unpackdrive => assembleWord 3 0 0
  | .unpackloadcap => assembleWord 3 1 0
  | .unpackhourmode => assembleWord 3 2 0
  | .unpack100th => assembleWord 3 3 0
  | .unpackbatsw => assembleWord 3 4 0
  | .setdrive opt => assembleWord 4 0 opt
  | .setloadcap opt => assembleWord 4 1 opt
  | .sethourmode mode => assembleWord 4 2 mode
  | .set100th opt => assembleWord 4 3 opt
  | .setbatsw opt => assembleWord 4 4 opt
  | .getdrive => assembleWord 5 0 0
  | .getloadcap => assembleWord 5 1 0
  | .gethourmode => assembleWord 5 2 0
  | .get100th => assembleWord 5 3 0
  | .getbatsw => assembleWord 5 4 0

/-- A row of the opcode map: it selects the words `w` with `w & mask = bits` (30_encoding R63). -/
structure OpcodeRow where
  bits : CmdWord
  mask : CmdWord
  deriving DecidableEq, Repr

/-- The row of each operation, its match and mask as the table of 30_encoding R63 prints them. -/
def opcodeRow : Instr → OpcodeRow
  | .byte2bcd => ⟨0x0000, 0xFFFF⟩
  | .bcd2byte => ⟨0x0100, 0xFFFF⟩
  | .enctime _ => ⟨0x1000, 0xFF00⟩
  | .dectime _ => ⟨0x1100, 0xFF00⟩
  | .packdrive _ => ⟨0x2000, 0xFF00⟩
  | .packloadcap _ => ⟨0x2100, 0xFF00⟩
  | .packhourmode _ => ⟨0x2200, 0xFF00⟩
  | .pack100th _ => ⟨0x2300, 0xFF00⟩
  | .packbatsw _ => ⟨0x2400, 0xFF00⟩
  | .unpackdrive => ⟨0x3000, 0xFFFF⟩
  | .unpackloadcap => ⟨0x3100, 0xFFFF⟩
  | .unpackhourmode => ⟨0x3200, 0xFFFF⟩
  | .unpack100th => ⟨0x3300, 0xFFFF⟩
  | .unpackbatsw => ⟨0x3400, 0xFFFF⟩
  | .setdrive _ => ⟨0x4000, 0xFF00⟩
  | .setloadcap _ => ⟨0x4100, 0xFF00⟩
  | .sethourmode _ => ⟨0x4200, 0xFF00⟩
  | .set100th _ => ⟨0x4300, 0xFF00⟩
  | .setbatsw _ => ⟨0x4400, 0xFF00⟩
  | .getdrive => ⟨0x5000, 0xFFFF⟩
  | .getloadcap => ⟨0x5100, 0xFFFF⟩
  | .gethourmode => ⟨0x5200, 0xFFFF⟩
  | .get100th => ⟨0x5300, 0xFFFF⟩
  | .getbatsw => ⟨0x5400, 0xFFFF⟩

/-- The row selects the word (30_encoding R63). -/
def OpcodeRow.selects (row : OpcodeRow) (w : CmdWord) : Bool :=
  w &&& row.mask == row.bits

/-- The host's question: the instruction the decoder reads from a word of `nbits` bits, bit 0 the least significant;
bits above `nbits` are 0 (log 23). -/
def decodeTableWord (nbits w : Nat) : Option Instr :=
  match decode (BitVec.ofNat 16 (w % 2 ^ nbits)) with
  | .ok i => some i
  | .error _ => none

end Sys2Proof
end

