-- ==== Sys2Proof/Config.lean ====
section
/-! DEFINITION. What is fixed at construction: the five fields, the type of the configuration record with its
FIELD_TABLE (spec 00_scope R4, 42_bitfield_pack R130), the hour modes, and the free values the spec leaves open
(93_implementation_defined U2, U6, U7). The default table stands in Machine/FieldTable.lean. -/
namespace Sys2Proof

/-- The five named settings of a ConfigByte the block can set or get (00_scope glossary, 30_encoding R62). -/
inductive Field where
  | drive
  | loadcap
  | hourmode
  | hundredths
  | batsw
  deriving DecidableEq, Repr

/-- HourMode, the enumeration of 12 and 24 (00_scope glossary). -/
inductive HourMode where
  | h12
  | h24
  deriving DecidableEq, Repr

/-- One field's entry of FIELD_TABLE (42_bitfield_pack R130): the mask, the finite map `enc` from option codes to
patterns and the finite map `dec` from values of `byte & mask` to option codes. A finite map is a list of key and
value pairs; log 19. The address is a constant of the design, not an entry (20_memory R31). -/
structure FieldSpec where
  mask : Byte
  enc  : List (Byte × Byte)
  dec  : List (Byte × Byte)
  deriving DecidableEq, Repr

/-- FIELD_TABLE: one entry per field (42_bitfield_pack R130). -/
structure FieldTable where
  drive      : FieldSpec
  loadcap    : FieldSpec
  hourmode   : FieldSpec
  hundredths : FieldSpec
  batsw      : FieldSpec
  deriving DecidableEq, Repr

/-- The configuration record (00_scope R4, 10_state R13). `DEVICE_ADDRESS` and `BUS_NUMBER` enter no rule of the
block. -/
structure ConfigRecord where
  table         : FieldTable
  deviceAddress : BitVec 7
  busNumber     : Nat
  deriving DecidableEq, Repr

/-! ### Free values

Each is an opaque constant: nothing can be proved of what it is. The step applies it to the counter `draws` of
State, so a fresh number gives a value unrelated to the earlier ones (log 5). -/

/-- The unspecified value of `status` while `rsp_valid` is 0 (10_state R14). -/
opaque Config.freeStatus : Nat → BitVec 3

/-- The unspecified value of port `r` (93_implementation_defined U6). -/
opaque Config.freeR : Nat → Byte

/-- The unspecified value of port `blk_out` (93_implementation_defined U6). -/
opaque Config.freeBlkOut : Nat → BlockPort

/-- The unspecified value of port `ts_out.year` (93_implementation_defined U6). -/
opaque Config.freeTsYear : Nat → BitVec 12

/-- The unspecified values of the seven other `ts_out` ports, numbered 0 to 6 in the order month, day, weekday, hour,
minute, second, hundredth (93_implementation_defined U6). -/
opaque Config.freeTsByte : Nat → Nat → Byte

/-- The unspecified value of port `txt_out` (93_implementation_defined U6, U7). -/
opaque Config.freeTxtOut : Nat → TextPort

/-- The unspecified value of `bus_we` while nothing is requested (70_reset_and_hazards R231). -/
opaque Config.freeBusWe : Nat → Bool

/-- The unspecified value of `bus_addr` while nothing is requested (70_reset_and_hazards R231). -/
opaque Config.freeBusAddr : Nat → Addr

/-- The unspecified value of `bus_wdata` while no write is requested (70_reset_and_hazards R231). -/
opaque Config.freeBusWdata : Nat → Byte

/-- The unspecified value of `bus_rdata` while the store target acknowledges a write (20_memory R40, R51 (b); log 28). -/
opaque Config.freeBusRdata : Nat → Byte

/-- The unspecified value of the `held` byte outside a write phase (10_state R16, 70_reset_and_hazards R231). -/
opaque Config.freeHeld : Nat → Byte

/-- What a chip register holds after a write to it failed or was abandoned by reset
(93_implementation_defined U2). -/
opaque Config.freeReg : Nat → Byte

end Sys2Proof
end

