-- ==== Sys2Proof/Machine/FieldTable.lean ====
section
/-! DEFINITION. The fields' addresses, the default FIELD_TABLE (spec 42_bitfield_pack R134 to R138) and the default
configuration record (00_scope R4). The addresses are the source's constants; the masks and patterns are the spec's own
general knowledge (PRESUMED, log 18). -/
namespace Sys2Proof.Machine

/-- `addr(f)`: the configuration register of each field, a protocol constant (20_memory R31, 42_bitfield_pack R134 to
R138). -/
def fieldAddr : Field → Addr
  | .drive => 0x25
  | .loadcap => 0x25
  | .hourmode => 0x25
  | .hundredths => 0x28
  | .batsw => 0x26

/-- A field's entry of the table (42_bitfield_pack R130). -/
def fieldSpec (t : FieldTable) : Field → FieldSpec
  | .drive => t.drive
  | .loadcap => t.loadcap
  | .hourmode => t.hourmode
  | .hundredths => t.hundredths
  | .batsw => t.batsw

/-- PRESUMED, log 18. The default table of 42_bitfield_pack R134 to R138. -/
def defaultTable : FieldTable where
  drive := ⟨0x0C, [(0, 0x00), (1, 0x04), (2, 0x08)], [(0x00, 0), (0x04, 1), (0x08, 2), (0x0C, 2)]⟩
  loadcap := ⟨0x03, [(0, 0x00), (1, 0x01), (2, 0x02)], [(0x00, 0), (0x01, 1), (0x02, 2), (0x03, 2)]⟩
  hourmode := ⟨0x20, [(24, 0x00), (12, 0x20)], [(0x00, 24), (0x20, 12)]⟩
  hundredths := ⟨0x80, [(0, 0x00), (1, 0x80)], [(0x00, 0), (0x80, 1)]⟩
  batsw := ⟨0x10, [(1, 0x00), (0, 0x10)], [(0x00, 1), (0x10, 0)]⟩

/-- The default configuration record: `DEVICE_ADDRESS` 0x51, `BUS_NUMBER` 1 (00_scope R4). -/
def defaultConfig : ConfigRecord :=
  ⟨defaultTable, 0x51, 1⟩

end Sys2Proof.Machine
end

