-- ==== Sys2Proof/Machine/State.lean ====
section
/-! DEFINITION. The machine's state: the block's ports and its transient state inside one bus operation
(spec 10_state R11, R16), the configuration record (00_scope R4), the target (20_memory R51), and the model's own two
fields, the counter of free values and the observed bus transactions. Also the two closed types of stops, and the state
after reset (70_reset_and_hazards R231). -/
namespace Sys2Proof.Machine

/-- `ts_in.*`: the Timestamp operand of `ENCTIME`, with the port widths of 10_state R11. -/
structure TsIn where
  year      : BitVec 12
  month     : BitVec 4
  day       : BitVec 5
  weekday   : BitVec 3
  hour      : BitVec 5
  minute    : BitVec 6
  second    : BitVec 6
  hundredth : BitVec 7
  deriving DecidableEq, Repr

/-- `ts_out.*`: the Timestamp result of `DECTIME`, with the port widths of 10_state R11. -/
structure TsOut where
  year      : BitVec 12
  month     : Byte
  day       : Byte
  weekday   : Byte
  hour      : Byte
  minute    : Byte
  second    : Byte
  hundredth : Byte
  deriving DecidableEq, Repr

/-- The requester's input ports (10_state R11). The block reads them at command acceptance and never drives them. -/
structure Inputs where
  rst      : Bool
  cmdValid : Bool
  cmd      : CmdWord
  a        : Byte
  blkIn    : BlockPort
  tsIn     : TsIn
  deriving DecidableEq, Repr

/-- The response port and the result ports (10_state R11). -/
structure Outputs where
  rspValid : Bool
  status   : BitVec 3
  r        : Byte
  blkOut   : BlockPort
  tsOut    : TsOut
  txtOut   : TextPort
  deriving DecidableEq, Repr

/-- The request side of the bus master port (10_state R11, 20_memory R40). -/
structure BusPort where
  req   : Bool
  we    : Bool
  addr  : Addr
  wdata : Byte
  deriving DecidableEq, Repr

/-- The bus operation in flight while its read is pending: a get of a field, or a set of a field to a pattern
(43_bitfield_rmw R160, R166). -/
inductive BusOp where
  | get (f : Field)
  | set (f : Field) (pat : Byte)
  deriving DecidableEq, Repr

/-- The phase (10_state R16). A pending phase carries what was sampled at acceptance (R17). -/
inductive Phase where
  | idle
  | readPending (op : BusOp)
  | writePending (f : Field) (pat : Byte)
  deriving DecidableEq, Repr

/-- The target's answer to one transaction: `bus_err` and `bus_rdata` at the moment `bus_ack` is 1
(20_memory R40). -/
structure BusAnswer where
  err   : Bool
  rdata : Byte
  deriving DecidableEq, Repr

/-- The two admissible target models (20_memory R51). -/
inductive TargetModel where
  /-- Any byte, success or failure, on every transaction: the answers are data of the state. -/
  | oracle
  /-- A plain array of bytes; no transaction fails. -/
  | store
  deriving DecidableEq, Repr

/-- The register space as address and byte pairs in one canonical form: addresses strictly rising and below 256, no
byte equal to what an unlisted register reads as (`Memory.wf`). -/
abbrev Memory := List Host.Cell

/-- The target: the transport with the chip behind it (10_state R18, R19; 20_memory R51). -/
structure Target where
  model   : TargetModel
  /-- The oracle's answers to come, oldest first; none left means not answered yet (log 10). -/
  answers : List BusAnswer
  /-- `REG[0..255]`. -/
  reg     : Memory
  deriving DecidableEq, Repr

/-- One answered bus transaction as seen at the bus port (20_memory R47; the notation of 95_test_vectors): a read with
the byte returned, or none where it failed; a write with the byte sent and whether it succeeded. -/
inductive BusTxn where
  | read (addr : Addr) (result : Option Byte)
  | write (addr : Addr) (data : Byte) (ok : Bool)
  deriving DecidableEq, Repr

/-- The whole machine. -/
structure State where
  /-- The requester's ports. -/
  inp    : Inputs
  /-- The response and result ports. -/
  out    : Outputs
  /-- The phase of the operation in flight (10_state R16). -/
  phase  : Phase
  /-- The byte a `SET*` read and has not yet written back (10_state R16). -/
  held   : Byte
  /-- The bus master port's request side. -/
  bus    : BusPort
  /-- The configuration record, which no step changes (10_state R13; log 1). -/
  config : ConfigRecord
  /-- The target. -/
  target : Target
  /-- The model's own: how many free values have been drawn (log 5). -/
  draws  : Nat
  /-- The model's own: the bus transactions answered so far, oldest first (log 16). -/
  busLog : List BusTxn
  deriving DecidableEq, Repr

/-- The errors that end an operation (60_exceptions R190 to R195). They are statuses of a response, not stops. -/
inductive OpError where
  | invalidOption
  | invalidHourMode
  | outOfRange
  | illegalCommand
  | busError
  deriving DecidableEq, Repr

/-- Reasons to stop with a fault: there are none. Every error of this machine is a status of a response
(60_exceptions R198), and every address of the register space is one register (20_memory R30). -/
inductive Fault where
  deriving DecidableEq, Repr

/-- Reasons to refuse an instruction. -/
inductive Refusal where
  /-- Raised by an arm of `exec` whose instruction has no meaning yet; no arm of this model raises it. Safe: nothing
  can be proved of such an instruction's effect. -/
  | notModelled (mnemonic : String)
  deriving DecidableEq, Repr

/-- What a step or a meaning answers. -/
abbrev StepResult := Host.Outcome State Fault Refusal

/-- The machine right after reset (70_reset_and_hazards R231): `rsp_valid` 0, `bus_req` 0, phase IDLE, hence
`cmd_ready` 1. What R231 leaves unspecified, and the requester's ports, hold 0 (DESIGN CHOICE, log 7, log 8); the
target is the store target with nothing listed (DESIGN CHOICE, log 9, log 14). -/
def State.reset : State where
  inp := ⟨false, false, 0, 0, 0, ⟨0, 0, 0, 0, 0, 0, 0, 0⟩⟩
  out := ⟨false, 0, 0, 0, ⟨0, 0, 0, 0, 0, 0, 0, 0⟩, 0⟩
  phase := .idle
  held := 0
  bus := ⟨false, false, 0, 0⟩
  config := defaultConfig
  target := ⟨.store, [], []⟩
  draws := 0
  busLog := []

end Sys2Proof.Machine
end

