-- ==== Sys2Proof/Machine/Flags.lean ====
section
/-! DEFINITION. The block has no flag, condition code or predicate (spec 10_state R14); what an operation leaves behind is
one 3-bit status code (60_exceptions R190). The codes are here. -/
namespace Sys2Proof.Machine

/-- The status code of success, `OK` (60_exceptions R190). -/
def statusOk : BitVec 3 := 0

/-- The status code of each error (60_exceptions R190); codes 6 and 7 are never produced. -/
def errorCode : OpError → BitVec 3
  | .invalidOption => 1
  | .invalidHourMode => 2
  | .outOfRange => 3
  | .illegalCommand => 4
  | .busError => 5

end Sys2Proof.Machine
end

