-- ==== Sys2Proof/Machine/Operands.lean ====
section
/-! DEFINITION. The pure functions every operation is built from: the BCD codec (spec 40_bcd R90, R91), the hour rules
(41_time_codec R102, R103), the register block and its port packing (R101, 20_memory R42), the two directions of the time
codec (R104, R105, R108), the rendered text (R106), and the bitfield functions (42_bitfield_pack R131 to R133).
An operation that raises answers `.error` with the error. -/
namespace Sys2Proof.Machine

/-! ### BCD bytes (40_bcd) -/

/-- `BcdToByte(c)`: low nibble plus ten times high nibble, on every byte (40_bcd R90). -/
def bcdToByte (c : Byte) : Nat :=
  (c &&& 0x0F).toNat + 10 * ((c >>> 4) &&& 0x0F).toNat

/-- `ByteToBcd(v)`: tens digit in the high nibble, ones digit in the low one; `OutOfRange` from 100 on
(40_bcd R91). -/
def byteToBcd (v : Nat) : Except OpError Byte :=
  if v < 100 then .ok ((BitVec.ofNat 8 (v / 10) <<< 4) ||| BitVec.ofNat 8 (v % 10)) else .error .outOfRange

/-- A valid BCD byte has both nibbles in 0 to 9 (00_scope glossary). -/
def validBcd (c : Byte) : Bool :=
  decide ((c &&& 0x0F).toNat ≤ 9) && decide (((c >>> 4) &&& 0x0F).toNat ≤ 9)

/-! ### Hours (41_time_codec) -/

/-- `PM_BIT`: bit 5 of the hours byte (00_scope R4). -/
def pmBit : Byte := 0x20

/-- The hour mode an immediate names, else `InvalidHourMode` (30_encoding R64, 60_exceptions R192). -/
def hourModeOf (imm : Byte) : Except OpError HourMode :=
  if imm = 12 then .ok .h12 else if imm = 24 then .ok .h24 else .error .invalidHourMode

/-- `EncHour(h, mode)`: the hours byte of an hour 0 to 23 (41_time_codec R102). -/
def encHour (h : Nat) : HourMode → Except OpError Byte
  | .h24 => byteToBcd h
  | .h12 =>
    if h = 0 then byteToBcd 12
    else if h ≤ 11 then byteToBcd h
    else if h = 12 then (byteToBcd 12).map (· ||| pmBit)
    else (byteToBcd (h - 12)).map (· ||| pmBit)

/-- `DecHour(b, mode)`: bit 5 masked off, 12 read as 0, 12 added where bit 5 is set (41_time_codec R103). -/
def decHour (b : Byte) : HourMode → Nat
  | .h24 => bcdToByte b
  | .h12 =>
    let v := bcdToByte (b &&& ~~~pmBit)
    let v := if v = 12 then 0 else v
    if b &&& pmBit = pmBit then v + 12 else v

/-! ### Register blocks (41_time_codec R101, 20_memory R33, R42) -/

/-- A RegisterBlock: eight bytes in the fixed order of 41_time_codec R101. -/
structure RegisterBlock where
  hundredths : Byte
  seconds    : Byte
  minutes    : Byte
  hours      : Byte
  day        : Byte
  weekday    : Byte
  month      : Byte
  year       : Byte
  deriving DecidableEq, Repr

/-- Byte `i` of a block port, bits `8i+7` to `8i` (20_memory R42). -/
def blockByte (p : BlockPort) (i : Nat) : Byte :=
  p.extractLsb' (8 * i) 8

/-- The block on a port (20_memory R42). -/
def blockOfPort (p : BlockPort) : RegisterBlock where
  hundredths := blockByte p 0
  seconds := blockByte p 1
  minutes := blockByte p 2
  hours := blockByte p 3
  day := blockByte p 4
  weekday := blockByte p 5
  month := blockByte p 6
  year := blockByte p 7

/-- The port value of a block: hundredths least significant, year most significant (20_memory R42). -/
def portOfBlock (b : RegisterBlock) : BlockPort :=
  b.year ++ b.month ++ b.weekday ++ b.day ++ b.hours ++ b.minutes ++ b.seconds ++ b.hundredths

/-- `ValidBlock(blk, mode)`: every byte a valid BCD byte, the hours byte without bit 5 in mode 12
(41_time_codec R101). -/
def validBlock (b : RegisterBlock) (m : HourMode) : Bool :=
  validBcd b.hundredths && validBcd b.seconds && validBcd b.minutes && validBcd b.day && validBcd b.weekday &&
    validBcd b.month && validBcd b.year &&
    match m with
    | .h24 => validBcd b.hours
    | .h12 => validBcd (b.hours &&& 0xDF)

/-! ### The time codec (41_time_codec) -/

/-- `YEAR_BASE` (00_scope R4). -/
def yearBase : Nat := 2000

/-- `ValidTimestamp` (41_time_codec R100). -/
def validTimestamp (t : TsIn) : Bool :=
  decide (2000 ≤ t.year.toNat ∧ t.year.toNat ≤ 2099) && decide (1 ≤ t.month.toNat ∧ t.month.toNat ≤ 12) &&
    decide (1 ≤ t.day.toNat ∧ t.day.toNat ≤ 31) && decide (t.weekday.toNat ≤ 6) && decide (t.hour.toNat ≤ 23) &&
    decide (t.minute.toNat ≤ 59) && decide (t.second.toNat ≤ 59) && decide (t.hundredth.toNat ≤ 99)

/-- The eight bytes of `ENCTIME`, in the order of its pseudocode (41_time_codec R104). -/
def encodeBlock (t : TsIn) (m : HourMode) : Except OpError RegisterBlock := do
  let hundredths ← byteToBcd t.hundredth.toNat
  let seconds ← byteToBcd t.second.toNat
  let minutes ← byteToBcd t.minute.toNat
  let hours ← encHour t.hour.toNat m
  let day ← byteToBcd t.day.toNat
  let weekday ← byteToBcd t.weekday.toNat
  let month ← byteToBcd t.month.toNat
  let year ← byteToBcd (t.year.toNat - yearBase)
  return ⟨hundredths, seconds, minutes, hours, day, weekday, month, year⟩

/-- `encodeTime`: the mode is checked first, then the range, then the block is formed (41_time_codec R104, R108). -/
def encodeTime (imm : Byte) (t : TsIn) : Except OpError BlockPort := do
  let m ← hourModeOf imm
  if validTimestamp t then
    return portOfBlock (← encodeBlock t m)
  else
    .error .outOfRange

/-- The Timestamp a block decodes to: no byte is checked, none masked but the hours byte's bit 5 in mode 12
(41_time_codec R105, R109). -/
def decodeBlock (b : RegisterBlock) (m : HourMode) : TsOut where
  year := BitVec.ofNat 12 (yearBase + bcdToByte b.year)
  month := BitVec.ofNat 8 (bcdToByte b.month)
  day := BitVec.ofNat 8 (bcdToByte b.day)
  weekday := BitVec.ofNat 8 (bcdToByte b.weekday)
  hour := BitVec.ofNat 8 (decHour b.hours m)
  minute := BitVec.ofNat 8 (bcdToByte b.minutes)
  second := BitVec.ofNat 8 (bcdToByte b.seconds)
  hundredth := BitVec.ofNat 8 (bcdToByte b.hundredths)

/-- `decodeTime`: fails with `InvalidHourMode` only (41_time_codec R105). -/
def decodeTime (imm : Byte) (p : BlockPort) : Except OpError TsOut :=
  (hourModeOf imm).map (decodeBlock (blockOfPort p))

/-! ### The rendered text (41_time_codec R106) -/

/-- The ASCII character of the last decimal digit of `n` (41_time_codec R106). -/
def digitChar (n : Nat) : Byte :=
  BitVec.ofNat 8 (0x30 + n % 10)

/-- A number below 100 in two digits with a leading zero (41_time_codec R106). -/
def twoDigits (n : Nat) : List Byte :=
  [digitChar (n / 10), digitChar n]

/-- The hundredths: two digits, or one digit followed by the trailing pad `0` (41_time_codec R106). -/
def hundredthDigits (n : Nat) : List Byte :=
  if 10 ≤ n then twoDigits n else [digitChar n, 0x30]

/-- The 23 characters of the text (41_time_codec R106). -/
def renderChars (t : TsOut) : List Byte :=
  twoDigits (t.year.toNat / 100) ++ twoDigits t.year.toNat ++ [0x2D] ++ twoDigits t.month.toNat ++ [0x2D] ++
    twoDigits t.day.toNat ++ [0x54] ++ twoDigits t.hour.toNat ++ [0x3A] ++ twoDigits t.minute.toNat ++ [0x3A] ++
    twoDigits t.second.toNat ++ [0x2E] ++ hundredthDigits t.hundredth.toNat ++ [0x5A]

/-- Characters on the text port: character `k` at bits `8k+7` to `8k` (41_time_codec R106). -/
def packText (cs : List Byte) : TextPort :=
  cs.foldr (fun c acc => (acc <<< 8) ||| c.setWidth 184) 0

/-- Character `k` of the text port (10_state R11). -/
def textChar (p : TextPort) (k : Nat) : Byte :=
  p.extractLsb' (8 * k) 8

/-- Every one of the six two-digit fields of the text is below 100 (41_time_codec R106, last paragraph). -/
def renderable (t : TsOut) : Bool :=
  decide (t.month.toNat < 100) && decide (t.day.toNat < 100) && decide (t.hour.toNat < 100) &&
    decide (t.minute.toNat < 100) && decide (t.second.toNat < 100) && decide (t.hundredth.toNat < 100)

/-- `Render(ts)`: the text, or none where the spec leaves it unspecified (41_time_codec R106,
93_implementation_defined U7). -/
def render (t : TsOut) : Option TextPort :=
  if renderable t then some (packText (renderChars t)) else none

/-! ### Bitfields (42_bitfield_pack) -/

/-- `Pack(old, f, pat)` (42_bitfield_pack R131). -/
def pack (t : FieldTable) (old : Byte) (f : Field) (pat : Byte) : Byte :=
  (old &&& ~~~(fieldSpec t f).mask) ||| pat

/-- `Unpack(b, f)` (42_bitfield_pack R132). -/
def unpack (t : FieldTable) (b : Byte) (f : Field) : Except OpError Byte :=
  match (fieldSpec t f).dec.lookup (b &&& (fieldSpec t f).mask) with
  | some o => .ok o
  | none => .error .invalidOption

/-- `OptionPattern(f, imm)` (42_bitfield_pack R133). -/
def optionPattern (t : FieldTable) (f : Field) (imm : Byte) : Except OpError Byte :=
  match (fieldSpec t f).enc.lookup imm with
  | some pat => .ok pat
  | none => if f = .hourmode then .error .invalidHourMode else .error .invalidOption

end Sys2Proof.Machine
end

