-- ==== Sys2Proof/Machine/Ops.lean ====
section
/-! DEFINITION. The named operations over memory, ports and phases: reading and writing a chip register, ending an
operation with its response (spec 10_state R11, R14), raising an error as ONE shared operation (60_exceptions R198), the two
bus primitives (20_memory R40), the common sequences of the RMW family (43_bitfield_rmw R160, R166), going on with a pending
operation, and reset (70_reset_and_hazards R231, R232). There is no return from an error: nothing was saved and there is
nothing to restore (60_exceptions R200). -/
namespace Sys2Proof.Machine

/-! ### The register space -/

/-- DESIGN CHOICE, log 14. What a chip register reads as when nothing has written it. -/
def unlistedByte : Byte := 0x00

/-- The byte at an address (20_memory R30, R51 (b)). -/
def memRead : Memory → Nat → Byte
  | [], _ => unlistedByte
  | (k, b) :: rest, a => if a = k then b else memRead rest a

/-- Insert, replace or remove one register's entry, keeping the canonical form. -/
def memWrite : Memory → Nat → Byte → Memory
  | [], a, v => if v = unlistedByte then [] else [(a, v)]
  | (k, b) :: rest, a, v =>
    if a < k then (if v = unlistedByte then (k, b) :: rest else (a, v) :: (k, b) :: rest)
    else if a = k then (if v = unlistedByte then rest else (a, v) :: rest)
    else (k, b) :: memWrite rest a v

/-- Addresses rise strictly from `lo` on and stay below 256, and no entry is what an unlisted register reads as. -/
def wfFrom : Nat → Memory → Bool
  | _, [] => true
  | lo, (k, b) :: rest => decide (lo ≤ k) && decide (k < 256) && b != unlistedByte && wfFrom (k + 1) rest

/-- The canonical form of the register space: equal register spaces are equal lists. -/
def Memory.wf (m : Memory) : Bool :=
  wfFrom 0 m

/-- `REG[a]` of the target (20_memory R51). -/
def State.readReg (s : State) (a : Addr) : Byte :=
  memRead s.target.reg a.toNat

/-! ### Views of the ports -/

/-- `cmd_ready`: the block is idle and accepts a command (10_state R11, R12). -/
def cmdReady (s : State) : Bool :=
  decide (s.phase = .idle)

/-- The target's answer to the transaction requested on the bus port, if it answers: the store target always does, the
oracle with its next answer (20_memory R51; log 10). What `bus_rdata` carries while the store target acknowledges a write is
left open by R40 and R51 (b): a free value (DESIGN CHOICE, log 28), which no operation reads. -/
def busAnswer (s : State) : Option BusAnswer :=
  if s.bus.req then
    match s.target.model with
    | .store => some ⟨false, if s.bus.we then Config.freeBusRdata s.draws else s.readReg s.bus.addr⟩
    | .oracle => s.target.answers.head?
  else none

/-- `bus_ack` (20_memory R40). -/
def busAck (s : State) : Bool :=
  (busAnswer s).isSome

/-- `bus_err`, which means something only while `bus_ack` is 1 (20_memory R40): none while it is 0. -/
def busErr (s : State) : Option Bool :=
  (busAnswer s).map (·.err)

/-- `bus_rdata`, whatever the target supplies, which means something only while `bus_ack` is 1 (20_memory R40): none while
it is 0. -/
def busRdata (s : State) : Option Byte :=
  (busAnswer s).map (·.rdata)

/-! ### Unspecified values -/

/-- The result ports, all unspecified (10_state R11, 93_implementation_defined U6); `n` numbers the draw (log 5). -/
def unspecifiedOutputs (n : Nat) (rspValid : Bool) (status : BitVec 3) : Outputs where
  rspValid := rspValid
  status := status
  r := Config.freeR n
  blkOut := Config.freeBlkOut n
  tsOut :=
    { year := Config.freeTsYear n
      month := Config.freeTsByte 0 n
      day := Config.freeTsByte 1 n
      weekday := Config.freeTsByte 2 n
      hour := Config.freeTsByte 3 n
      minute := Config.freeTsByte 4 n
      second := Config.freeTsByte 5 n
      hundredth := Config.freeTsByte 6 n }
  txtOut := Config.freeTxtOut n

/-- The bus port while nothing is requested: `bus_req` 0, the rest unspecified (log 17). -/
def releasedBus (n : Nat) : BusPort where
  req := false
  we := Config.freeBusWe n
  addr := Config.freeBusAddr n
  wdata := Config.freeBusWdata n

/-! ### Ending an operation -/

/-- What an operation drives beside `status` when it ends with `OK` (30_encoding R67). -/
inductive Result where
  /-- Nothing but `status` (`SET*`). -/
  | nothing
  /-- Port `r`. -/
  | byte (b : Byte)
  /-- Port `blk_out` (`ENCTIME`). -/
  | block (p : BlockPort)
  /-- Ports `ts_out.*` and `txt_out` (`DECTIME`); none where the text is unspecified. -/
  | time (t : TsOut) (txt : Option TextPort)
  deriving DecidableEq, Repr

/-- Drive the result ports an operation names; the others keep what they have. -/
def driveResult (o : Outputs) : Result → Outputs
  | .nothing => o
  | .byte b => { o with r := b }
  | .block p => { o with blkOut := p }
  | .time t (some txt) => { o with tsOut := t, txtOut := txt }
  | .time t none => { o with tsOut := t }

/-- The response: `rsp_valid` rises with the status code and the named results, every other output port is unspecified,
the phase returns to IDLE and `held` is dropped (10_state R11, R14, R16; 60_exceptions R198). -/
def respond (s : State) (code : BitVec 3) (res : Result) : State :=
  { s with
    out := driveResult (unspecifiedOutputs s.draws true code) res
    phase := .idle
    held := Config.freeHeld s.draws
    bus := releasedBus s.draws
    draws := s.draws + 1 }

/-- The operation ends with status `OK`. -/
def finish (s : State) (res : Result) : State :=
  respond s statusOk res

/-- `raise X`: the operation ends with the error's code and drives no result port (60_exceptions R198). The ONE way an
error is taken. -/
def raise (s : State) (e : OpError) : State :=
  respond s (errorCode e) .nothing

/-- End an operation with what its pseudocode came to: results, or the first error it raised (60_exceptions R197). -/
def conclude (s : State) : Except OpError Result → State
  | .ok res => finish s res
  | .error e => raise s e

/-- A reserved command word ends at once with `IllegalCommand` (30_encoding R66, 60_exceptions R194). -/
def illegalCommand (s : State) : State :=
  raise s .illegalCommand

/-! ### Bus transactions (20_memory R40) -/

/-- Request a read of the operation's field: the operation is in flight, no response is valid (20_memory R40,
10_state R16). -/
def requestRead (op : BusOp) (s : State) : State :=
  { s with
    out := unspecifiedOutputs s.draws false (Config.freeStatus s.draws)
    phase := .readPending op
    held := Config.freeHeld s.draws
    bus :=
      { req := true
        we := false
        addr := match op with
          | .get f => fieldAddr f
          | .set f _ => fieldAddr f
        wdata := Config.freeBusWdata s.draws }
    draws := s.draws + 1 }

/-- Request the write of a set: `held` with the field's bits replaced by the pattern (43_bitfield_rmw R160). -/
def requestWrite (f : Field) (pat : Byte) (s : State) : State :=
  { s with
    phase := .writePending f pat
    bus := ⟨true, true, fieldAddr f, pack s.config.table s.held f pat⟩ }

/-- The transaction as it is seen at the bus port (20_memory R47). -/
def observedTxn (b : BusPort) (a : BusAnswer) : BusTxn :=
  if b.we then .write b.addr b.wdata (!a.err) else .read b.addr (if a.err then none else some a.rdata)

/-- The register space after an answered transaction: a read leaves it (for the store target 20_memory R51 (b) says so; for
the oracle target it is a DESIGN CHOICE, log 29), an acknowledged write stores the byte (log 11), a failed write leaves any
value (93_implementation_defined U2; log 12). -/
def regAfter (s : State) (a : BusAnswer) : Memory :=
  if s.bus.we then
    memWrite s.target.reg s.bus.addr.toNat (if a.err then Config.freeReg s.draws else s.bus.wdata)
  else s.target.reg

/-- The target has answered: `bus_req` falls, the oracle's answer is used up, the transaction has been seen. -/
def settle (s : State) (a : BusAnswer) : State :=
  { s with
    bus := { s.bus with req := false }
    target :=
      { s.target with
        answers := match s.target.model with
          | .store => s.target.answers
          | .oracle => s.target.answers.tail
        reg := regAfter s a }
    busLog := s.busLog ++ [observedTxn s.bus a] }

/-- How a requested transaction stands (20_memory R40). -/
inductive Transaction where
  /-- Not answered yet: wait. -/
  | waiting
  /-- Answered with `bus_err` 1. -/
  | failed (s : State)
  /-- Answered, with the byte of `bus_rdata`. -/
  | done (s : State) (b : Byte)
  deriving DecidableEq, Repr

/-- Wait for the answer to the requested transaction (20_memory R40). -/
def transact (s : State) : Transaction :=
  match busAnswer s with
  | none => .waiting
  | some a => if a.err then .failed (settle s a) else .done (settle s a) a.rdata

/-- Go on from a requested write: wait, or `BusError`, or end with `OK` (43_bitfield_rmw R160, R172). -/
def afterWrite (s : State) : State :=
  match transact s with
  | .waiting => s
  | .failed t => raise t .busError
  | .done t _ => finish t .nothing

/-- Go on from a requested read: wait, or `BusError`, or unpack the byte (a get), or hold it and request the write
(a set) (43_bitfield_rmw R160, R166, R172). -/
def afterRead (op : BusOp) (s : State) : State :=
  match transact s with
  | .waiting => s
  | .failed t => raise t .busError
  | .done t b =>
    match op with
    | .get f => conclude t ((unpack t.config.table b f).map .byte)
    | .set f pat => afterWrite (requestWrite f pat { t with held := b })

/-- `SET<field> opt`: the option is checked before any bus access; then one read and one write
(43_bitfield_rmw R160). -/
def runSet (f : Field) (imm : Byte) (s : State) : State :=
  match optionPattern s.config.table f imm with
  | .error e => raise s e
  | .ok pat => afterRead (.set f pat) (requestRead (.set f pat) s)

/-- `GET<field>`: one read (43_bitfield_rmw R166). -/
def runGet (f : Field) (s : State) : State :=
  afterRead (.get f) (requestRead (.get f) s)

/-- `PACK<field> opt` (42_bitfield_pack section 3). -/
def runPack (f : Field) (imm : Byte) (s : State) : State :=
  conclude s ((optionPattern s.config.table f imm).map fun pat => .byte (pack s.config.table s.inp.a f pat))

/-- `UNPACK<field>` (42_bitfield_pack section 4). -/
def runUnpack (f : Field) (s : State) : State :=
  conclude s ((unpack s.config.table s.inp.a f).map .byte)

/-- One more step of an operation in flight: as far as the target's answers go, else wait (70_reset_and_hazards R241).
A pending phase whose transaction is not yet requested (R232's "the read done and the write not yet requested")
requests it. -/
def resume (s : State) : State :=
  match s.phase with
  | .idle => s
  | .readPending op => afterRead op (if s.bus.req then s else requestRead op s)
  | .writePending f pat => afterWrite (if s.bus.req then s else requestWrite f pat s)

/-! ### Reset (70_reset_and_hazards R230 to R233) -/

/-- A write is on the bus, requested and not answered (70_reset_and_hazards R232). -/
def writeInFlight (s : State) : Bool :=
  match s.phase with
  | .writePending _ _ => s.bus.req
  | _ => false

/-- The block held in reset (70_reset_and_hazards R231): an operation in flight is abandoned without a response; a write
already requested leaves any value in its register (R232, 93_implementation_defined U2). -/
def resetBlock (s : State) : State :=
  { s with
    out := unspecifiedOutputs s.draws false (Config.freeStatus s.draws)
    phase := .idle
    held := Config.freeHeld s.draws
    bus := releasedBus s.draws
    target :=
      { s.target with
        reg := if writeInFlight s then memWrite s.target.reg s.bus.addr.toNat (Config.freeReg s.draws)
          else s.target.reg }
    draws := s.draws + 1 }

end Sys2Proof.Machine
end

