-- ==== Sys2Proof/Machine/Bcd.lean ====
section
/-! DEFINITION. Family BCD (spec 40_bcd): BYTE2BCD and BCD2BYTE. -/
namespace Sys2Proof.Machine

/-- `BYTE2BCD` (40_bcd R93). -/
def execByte2bcd (s : State) : StepResult :=
  .next (conclude s ((byteToBcd s.inp.a.toNat).map .byte))

/-- `BCD2BYTE` (40_bcd R92). -/
def execBcd2byte (s : State) : StepResult :=
  .next (finish s (.byte (BitVec.ofNat 8 (bcdToByte s.inp.a))))

end Sys2Proof.Machine
end

