-- ==== Sys2Proof/Machine/Pack.lean ====
section
/-! DEFINITION. Family PACK (spec 42_bitfield_pack): the five PACK and the five UNPACK operations. -/
namespace Sys2Proof.Machine

/-- `PACKDRIVE opt` (42_bitfield_pack R139). -/
def execPackdrive (opt : Byte) (s : State) : StepResult :=
  .next (runPack .drive opt s)

/-- `PACKLOADCAP opt` (42_bitfield_pack R140). -/
def execPackloadcap (opt : Byte) (s : State) : StepResult :=
  .next (runPack .loadcap opt s)

/-- `PACKHOURMODE mode` (42_bitfield_pack R141). -/
def execPackhourmode (mode : Byte) (s : State) : StepResult :=
  .next (runPack .hourmode mode s)

/-- `PACK100TH opt` (42_bitfield_pack R142). -/
def execPack100th (opt : Byte) (s : State) : StepResult :=
  .next (runPack .hundredths opt s)

/-- `PACKBATSW opt` (42_bitfield_pack R143). -/
def execPackbatsw (opt : Byte) (s : State) : StepResult :=
  .next (runPack .batsw opt s)

/-- `UNPACKDRIVE` (42_bitfield_pack R144). -/
def execUnpackdrive (s : State) : StepResult :=
  .next (runUnpack .drive s)

/-- `UNPACKLOADCAP` (42_bitfield_pack R145). -/
def execUnpackloadcap (s : State) : StepResult :=
  .next (runUnpack .loadcap s)

/-- `UNPACKHOURMODE` (42_bitfield_pack R146). -/
def execUnpackhourmode (s : State) : StepResult :=
  .next (runUnpack .hourmode s)

/-- `UNPACK100TH` (42_bitfield_pack R147). -/
def execUnpack100th (s : State) : StepResult :=
  .next (runUnpack .hundredths s)

/-- `UNPACKBATSW` (42_bitfield_pack R148). -/
def execUnpackbatsw (s : State) : StepResult :=
  .next (runUnpack .batsw s)

end Sys2Proof.Machine
end

