-- ==== Sys2Proof/Machine/Rmw.lean ====
section
/-! DEFINITION. Family RMW (spec 43_bitfield_rmw): the five SET and the five GET operations. -/
namespace Sys2Proof.Machine

/-- `SETDRIVE opt` (43_bitfield_rmw R161). -/
def execSetdrive (opt : Byte) (s : State) : StepResult :=
  .next (runSet .drive opt s)

/-- `SETLOADCAP opt` (43_bitfield_rmw R162). -/
def execSetloadcap (opt : Byte) (s : State) : StepResult :=
  .next (runSet .loadcap opt s)

/-- `SETHOURMODE mode` (43_bitfield_rmw R163). -/
def execSethourmode (mode : Byte) (s : State) : StepResult :=
  .next (runSet .hourmode mode s)

/-- `SET100TH opt` (43_bitfield_rmw R164). -/
def execSet100th (opt : Byte) (s : State) : StepResult :=
  .next (runSet .hundredths opt s)

/-- `SETBATSW opt` (43_bitfield_rmw R165). -/
def execSetbatsw (opt : Byte) (s : State) : StepResult :=
  .next (runSet .batsw opt s)

/-- `GETDRIVE` (43_bitfield_rmw R167). -/
def execGetdrive (s : State) : StepResult :=
  .next (runGet .drive s)

/-- `GETLOADCAP` (43_bitfield_rmw R168). -/
def execGetloadcap (s : State) : StepResult :=
  .next (runGet .loadcap s)

/-- `GETHOURMODE` (43_bitfield_rmw R169). -/
def execGethourmode (s : State) : StepResult :=
  .next (runGet .hourmode s)

/-- `GET100TH` (43_bitfield_rmw R170). -/
def execGet100th (s : State) : StepResult :=
  .next (runGet .hundredths s)

/-- `GETBATSW` (43_bitfield_rmw R171). -/
def execGetbatsw (s : State) : StepResult :=
  .next (runGet .batsw s)

end Sys2Proof.Machine
end

