-- ==== Sys2Proof/Machine/Time.lean ====
section
/-! DEFINITION. Family TIME (spec 41_time_codec): ENCTIME and DECTIME. -/
namespace Sys2Proof.Machine

/-- `ENCTIME mode` (41_time_codec R104). -/
def execEnctime (mode : Byte) (s : State) : StepResult :=
  .next (conclude s ((encodeTime mode s.inp.tsIn).map .block))

/-- `DECTIME mode` (41_time_codec R105). -/
def execDectime (mode : Byte) (s : State) : StepResult :=
  .next (conclude s ((decodeTime mode s.inp.blkIn).map fun t => .time t (render t)))

end Sys2Proof.Machine
end

