-- ==== Sys2Proof/Machine/Dispatch.lean ====
section
/-! DEFINITION. The meaning of every instruction: one arm per constructor (spec 30_encoding R63). -/
namespace Sys2Proof.Machine

def exec (i : Instr) (s : State) : Host.Outcome State Fault Refusal :=
  match i with
  | .byte2bcd => Sys2Proof.Machine.execByte2bcd s
  | .bcd2byte => Sys2Proof.Machine.execBcd2byte s
  | .enctime mode => Sys2Proof.Machine.execEnctime mode s
  | .dectime mode => Sys2Proof.Machine.execDectime mode s
  | .packdrive opt => Sys2Proof.Machine.execPackdrive opt s
  | .packloadcap opt => Sys2Proof.Machine.execPackloadcap opt s
  | .packhourmode mode => Sys2Proof.Machine.execPackhourmode mode s
  | .pack100th opt => Sys2Proof.Machine.execPack100th opt s
  | .packbatsw opt => Sys2Proof.Machine.execPackbatsw opt s
  | .unpackdrive => Sys2Proof.Machine.execUnpackdrive s
  | .unpackloadcap => Sys2Proof.Machine.execUnpackloadcap s
  | .unpackhourmode => Sys2Proof.Machine.execUnpackhourmode s
  | .unpack100th => Sys2Proof.Machine.execUnpack100th s
  | .unpackbatsw => Sys2Proof.Machine.execUnpackbatsw s
  | .setdrive opt => Sys2Proof.Machine.execSetdrive opt s
  | .setloadcap opt => Sys2Proof.Machine.execSetloadcap opt s
  | .sethourmode mode => Sys2Proof.Machine.execSethourmode mode s
  | .set100th opt => Sys2Proof.Machine.execSet100th opt s
  | .setbatsw opt => Sys2Proof.Machine.execSetbatsw opt s
  | .getdrive => Sys2Proof.Machine.execGetdrive s
  | .getloadcap => Sys2Proof.Machine.execGetloadcap s
  | .gethourmode => Sys2Proof.Machine.execGethourmode s
  | .get100th => Sys2Proof.Machine.execGet100th s
  | .getbatsw => Sys2Proof.Machine.execGetbatsw s

end Sys2Proof.Machine
end

