-- ==== Sys2Proof/Machine/Step.lean ====
section
/-! DEFINITION. One step of the machine, and the host's way to offer one command. The block fetches nothing: a command is
what the requester offers on the command port (spec 10_state R12; log 2). -/
namespace Sys2Proof.Machine

/-- One step. While `rst` is 1 the block is held in reset (70_reset_and_hazards R230). Idle, it accepts the offered
command (10_state R12, R17) and runs it, or ends a reserved word with `IllegalCommand` (30_encoding R66); with no command
offered it waits. With an operation in flight it goes on with that one (R16, R241). -/
def step (s : State) : Host.Outcome State Fault Refusal :=
  if s.inp.rst then .next (resetBlock s)
  else
    match s.phase with
    | .idle =>
      if s.inp.cmdValid then
        match decode s.inp.cmd with
        | .ok i => exec i s
        | .error _ => .next (illegalCommand s)
      else .next s
    | .readPending _ => .next (resume s)
    | .writePending _ _ => .next (resume s)

/-- `s` with the command word `w` offered to an idle block that is not in reset, so that the next step accepts and runs
it: the requester's part, since the block has no memory to fetch a command from (10_state R12; log 2). -/
def State.withFetchWord (s : State) (nbits w : Nat) : State :=
  { s with
    inp := { s.inp with rst := false, cmdValid := true, cmd := BitVec.ofNat 16 (w % 2 ^ nbits) }
    phase := .idle }

end Sys2Proof.Machine
end

