-- ==== Sys2Proof/Machine/Assembler.lean ====
section
/-! DEFINITION. The assembler syntax and the pseudo-instructions (spec 30_encoding R65, R69, R70): one command per line,
a mnemonic in capitals and, where the operation takes an immediate, one operand. Nothing of the block depends on it; it
says which word a line stands for. What the syntax leaves open is log 25. -/
namespace Sys2Proof.Machine

/-- `ENA100TH` is `SET100TH 1` (30_encoding R70). -/
def pseudoEna100th : Instr := .set100th 1

/-- `DIS100TH` is `SET100TH 0` (30_encoding R70). -/
def pseudoDis100th : Instr := .set100th 0

/-- `ENABATSW` is `SETBATSW 1` (30_encoding R70). -/
def pseudoEnabatsw : Instr := .setbatsw 1

/-- `DISBATSW` is `SETBATSW 0` (30_encoding R70). -/
def pseudoDisbatsw : Instr := .setbatsw 0

/-- `SETMODE12` is `SETHOURMODE 12` (30_encoding R70). -/
def pseudoSetmode12 : Instr := .sethourmode 12

/-- `SETMODE24` is `SETHOURMODE 24` (30_encoding R70). -/
def pseudoSetmode24 : Instr := .sethourmode 24

/-- What a mnemonic takes as its operand: none, or a number or an option name of a field (30_encoding R65, R69); an hour
mode is a number only. -/
inductive OperandKind where
  | absent
  | mode
  | optionOf (f : Field)
  deriving DecidableEq, Repr

/-- One mnemonic of the syntax. -/
structure AsmRow where
  name : List Char
  kind : OperandKind
  make : Byte → Instr

/-- The mnemonics of 30_encoding R63 and the pseudo-instructions of R70. -/
def asmRows : List AsmRow :=
  [⟨"BYTE2BCD".toList, .absent, fun _ => .byte2bcd⟩, ⟨"BCD2BYTE".toList, .absent, fun _ => .bcd2byte⟩,
    ⟨"ENCTIME".toList, .mode, .enctime⟩, ⟨"DECTIME".toList, .mode, .dectime⟩] ++
  [⟨"PACKDRIVE".toList, .optionOf .drive, .packdrive⟩, ⟨"PACKLOADCAP".toList, .optionOf .loadcap, .packloadcap⟩,
    ⟨"PACKHOURMODE".toList, .mode, .packhourmode⟩, ⟨"PACK100TH".toList, .optionOf .hundredths, .pack100th⟩,
    ⟨"PACKBATSW".toList, .optionOf .batsw, .packbatsw⟩] ++
  [⟨"UNPACKDRIVE".toList, .absent, fun _ => .unpackdrive⟩, ⟨"UNPACKLOADCAP".toList, .absent, fun _ => .unpackloadcap⟩,
    ⟨"UNPACKHOURMODE".toList, .absent, fun _ => .unpackhourmode⟩,
    ⟨"UNPACK100TH".toList, .absent, fun _ => .unpack100th⟩, ⟨"UNPACKBATSW".toList, .absent, fun _ => .unpackbatsw⟩] ++
  [⟨"SETDRIVE".toList, .optionOf .drive, .setdrive⟩, ⟨"SETLOADCAP".toList, .optionOf .loadcap, .setloadcap⟩,
    ⟨"SETHOURMODE".toList, .mode, .sethourmode⟩, ⟨"SET100TH".toList, .optionOf .hundredths, .set100th⟩,
    ⟨"SETBATSW".toList, .optionOf .batsw, .setbatsw⟩] ++
  [⟨"GETDRIVE".toList, .absent, fun _ => .getdrive⟩, ⟨"GETLOADCAP".toList, .absent, fun _ => .getloadcap⟩,
    ⟨"GETHOURMODE".toList, .absent, fun _ => .gethourmode⟩, ⟨"GET100TH".toList, .absent, fun _ => .get100th⟩,
    ⟨"GETBATSW".toList, .absent, fun _ => .getbatsw⟩] ++
  [⟨"ENA100TH".toList, .absent, fun _ => pseudoEna100th⟩, ⟨"DIS100TH".toList, .absent, fun _ => pseudoDis100th⟩,
    ⟨"ENABATSW".toList, .absent, fun _ => pseudoEnabatsw⟩, ⟨"DISBATSW".toList, .absent, fun _ => pseudoDisbatsw⟩,
    ⟨"SETMODE12".toList, .absent, fun _ => pseudoSetmode12⟩, ⟨"SETMODE24".toList, .absent, fun _ => pseudoSetmode24⟩]

/-- The option names of a field and their codes (30_encoding R65, R69). -/
def optionNames : Field → List (List Char × Byte)
  | .drive => [("normal".toList, 0), ("low".toList, 1), ("high".toList, 2)]
  | .loadcap => [("7.0".toList, 0), ("6.0".toList, 1), ("12.5".toList, 2)]
  | .hourmode => []
  | .hundredths => [("off".toList, 0), ("on".toList, 1)]
  | .batsw => [("off".toList, 0), ("on".toList, 1)]

/-- The value of a digit in a base up to 16. -/
def digitValue (base : Nat) (c : Char) : Option Nat :=
  let n := c.toNat
  let v :=
    if 48 ≤ n ∧ n ≤ 57 then n - 48
    else if 65 ≤ n ∧ n ≤ 70 then n - 55
    else if 97 ≤ n ∧ n ≤ 102 then n - 87
    else 16
  if v < base then some v else none

/-- The number a run of digits stands for, `acc` being the value of the digits before it. -/
def digitsValue (base acc : Nat) : List Char → Option Nat
  | [] => some acc
  | c :: cs =>
    match digitValue base c with
    | some d => digitsValue base (acc * base + d) cs
    | none => none

/-- A decimal or `0x` hexadecimal number (30_encoding R69). -/
def numberValue : List Char → Option Nat
  | [] => none
  | '0' :: 'x' :: c :: cs => digitsValue 16 0 (c :: cs)
  | c :: cs => digitsValue 10 0 (c :: cs)

/-- A number that fits `IMM` (30_encoding R64). -/
def immediateValue (cs : List Char) : Option Byte :=
  match numberValue cs with
  | some n => if n < 256 then some (BitVec.ofNat 8 n) else none
  | none => none

/-- The operand of a mnemonic: a number or, where it takes an option, one of the field's option names. -/
def operandValue (k : OperandKind) (cs : List Char) : Option Byte :=
  match k with
  | .absent => none
  | .mode => immediateValue cs
  | .optionOf f =>
    match (optionNames f).lookup cs with
    | some o => some o
    | none => immediateValue cs

/-- A line without its comment, which starts with `--` (30_encoding R69). -/
def stripComment : List Char → List Char
  | [] => []
  | '-' :: '-' :: _ => []
  | c :: cs => c :: stripComment cs

/-- The words of a line; `cur` holds the characters of the word being read, last first. -/
def lineWords (cur : List Char) : List Char → List (List Char)
  | [] => if cur.isEmpty then [] else [cur.reverse]
  | c :: cs =>
    if c = ' ' then (if cur.isEmpty then lineWords [] cs else cur.reverse :: lineWords [] cs)
    else lineWords (c :: cur) cs

/-- The command word of one line; port operands `port=value` are documentation only (30_encoding R69). None where the
line is no command. -/
def assembleLine (line : List Char) : Option CmdWord :=
  match (lineWords [] (stripComment line)).filter fun w => !w.contains '=' with
  | [] => none
  | [m] =>
    match asmRows.find? fun r => r.name == m with
    | some r => if r.kind = .absent then some (encode (r.make 0)) else none
    | none => none
  | [m, o] =>
    match asmRows.find? fun r => r.name == m with
    | some r => (operandValue r.kind o).map fun imm => encode (r.make imm)
    | none => none
  | _ => none

end Sys2Proof.Machine
end

