-- ==== Sys2Proof/Machine/ChipMap.lean ====
section
/-! DEFINITION. The register map of the chip as far as the spec gives it (20_memory R31 to R39, R52): the named
registers, the named fields of the configuration registers at their default places (PRESUMED, log 27), and the command
bytes of register 0x2F. The block accesses three of these registers only (R32); the rest is what its caller must know. -/
namespace Sys2Proof.Machine

/-- The registers the source names (20_memory R31, R33). -/
inductive ChipRegister where
  | hundredths
  | seconds
  | minutes
  | hours
  | day
  | weekday
  | month
  | year
  | offset
  | oscillator
  | batterySwitch
  | pinIo
  | function
  | flags
  | stop
  | reset
  deriving DecidableEq, Repr

/-- The address of each named register (20_memory R31, R33). -/
def chipAddr : ChipRegister → Addr
  | .hundredths => 0x00
  | .seconds => 0x01
  | .minutes => 0x02
  | .hours => 0x03
  | .day => 0x04
  | .weekday => 0x05
  | .month => 0x06
  | .year => 0x07
  | .offset => 0x24
  | .oscillator => 0x25
  | .batterySwitch => 0x26
  | .pinIo => 0x27
  | .function => 0x28
  | .flags => 0x2B
  | .stop => 0x2E
  | .reset => 0x2F

/-- The named register at an address; none where the source lists nothing (20_memory R52). -/
def registerAt (a : Addr) : Option ChipRegister :=
  [.hundredths, .seconds, .minutes, .hours, .day, .weekday, .month, .year, .offset, .oscillator, .batterySwitch,
    .pinIo, .function, .flags, .stop, .reset].find? fun r => chipAddr r == a

/-- The named fields of the configuration registers and the stop register (20_memory R34 to R37). -/
inductive ChipField where
  | invert
  | offsetMode
  | hour12
  | jitter
  | driveControl
  | loadCapacitance
  | batterySwitchOff
  | refreshRate
  | switchMode
  | threshold
  | hundredthsEnable
  | periodicInterrupt
  | stopwatchMode
  | stopMode
  | outputFrequency
  | clockStopped
  deriving DecidableEq, Repr

/-- The register a field stands in (20_memory R34 to R37). -/
def chipFieldRegister : ChipField → ChipRegister
  | .invert | .offsetMode | .hour12 | .jitter | .driveControl | .loadCapacitance => .oscillator
  | .batterySwitchOff | .refreshRate | .switchMode | .threshold => .batterySwitch
  | .hundredthsEnable | .periodicInterrupt | .stopwatchMode | .stopMode | .outputFrequency => .function
  | .clockStopped => .stop

/-- PRESUMED, log 27. The bits a field occupies in its register, by the default layouts of 20_memory R34 to R37. -/
def chipFieldMask : ChipField → Byte
  | .invert => 0x80
  | .offsetMode => 0x40
  | .hour12 => 0x20
  | .jitter => 0x10
  | .driveControl => 0x0C
  | .loadCapacitance => 0x03
  | .batterySwitchOff => 0x10
  | .refreshRate => 0x08
  | .switchMode => 0x06
  | .threshold => 0x01
  | .hundredthsEnable => 0x80
  | .periodicInterrupt => 0x60
  | .stopwatchMode => 0x10
  | .stopMode => 0x08
  | .outputFrequency => 0x07
  | .clockStopped => 0x01

/-- The chip field a field of the block is, in the default layout (42_bitfield_pack R134 to R138). -/
def chipFieldOf : Field → ChipField
  | .drive => .driveControl
  | .loadcap => .loadCapacitance
  | .hourmode => .hour12
  | .hundredths => .hundredthsEnable
  | .batsw => .batterySwitchOff

/-- The byte written to register 0x2F for a software reset of the chip (20_memory R38). -/
def chipSoftwareReset : Byte := 0x2C

/-- The byte written to register 0x2F to clear the prescaler (20_memory R38). -/
def chipClearPrescaler : Byte := 0xA4

/-- The byte written to register 0x2F to clear the timestamps (20_memory R38). -/
def chipClearTimestamp : Byte := 0x25

end Sys2Proof.Machine
end

