-- ==== Sys2Proof/Machine/Requester.lean ====
section
/-! DEFINITION. What stands outside the block and acts between its steps (spec 00_scope R5, section 8 of the inventory):
the requester offering a command or driving `rst`, the target answering, the chip or another master changing a register
(20_memory R45, R46), and the requester's own set-time sequence (70_reset_and_hazards R235). No step calls any of these;
statements and programs do. -/
namespace Sys2Proof.Machine

/-- The requester offers an instruction with its operand ports (10_state R11, R17). -/
def offer (i : Instr) (a : Byte) (blk : BlockPort) (ts : TsIn) (s : State) : State :=
  { s with inp := { s.inp with cmdValid := true, cmd := encode i, a := a, blkIn := blk, tsIn := ts } }

/-- The requester offers nothing. -/
def withdraw (s : State) : State :=
  { s with inp := { s.inp with cmdValid := false } }

/-- The requester drives `rst` (70_reset_and_hazards R230). -/
def driveRst (level : Bool) (s : State) : State :=
  { s with inp := { s.inp with rst := level } }

/-- The oracle target has these further answers ready (20_memory R51 (a)). -/
def targetAnswers (as : List BusAnswer) (s : State) : State :=
  { s with target := { s.target with answers := s.target.answers ++ as } }

/-- The chip itself, another master or the requester through the transport changes one register
(20_memory R45, R46; 70_reset_and_hazards R236). -/
def otherWrite (a : Addr) (b : Byte) (s : State) : State :=
  { s with target := { s.target with reg := memWrite s.target.reg a.toNat b } }

/-- The requester reads the time block 0x00 to 0x07 through the transport, to feed `DECTIME` (20_memory R31, R33). DESIGN
CHOICE, log 30: the bytes are those of the plain array, whatever the target model. On the oracle target such a read may return
any bytes (20_memory R46, R51 (a); U8): there a program supplies port `blk_in` with any block, through `offer`. -/
def readTimeBlock (s : State) : RegisterBlock where
  hundredths := s.readReg (chipAddr .hundredths)
  seconds := s.readReg (chipAddr .seconds)
  minutes := s.readReg (chipAddr .minutes)
  hours := s.readReg (chipAddr .hours)
  day := s.readReg (chipAddr .day)
  weekday := s.readReg (chipAddr .weekday)
  month := s.readReg (chipAddr .month)
  year := s.readReg (chipAddr .year)

/-- The set-time sequence: stop the clock, clear the prescaler, write the eight data bytes in block order, restart the
clock (70_reset_and_hazards R235). The order and the byte 0xA4 are the source's; 0x01 for stopped and 0x00 for running
are PRESUMED (log 26). -/
def setTimeWrites (b : RegisterBlock) : List (Addr × Byte) :=
  [(chipAddr .stop, 0x01), (chipAddr .reset, chipClearPrescaler),
    (chipAddr .hundredths, b.hundredths), (chipAddr .seconds, b.seconds), (chipAddr .minutes, b.minutes),
    (chipAddr .hours, b.hours), (chipAddr .day, b.day), (chipAddr .weekday, b.weekday), (chipAddr .month, b.month),
    (chipAddr .year, b.year), (chipAddr .stop, 0x00)]

/-- The requester performs writes through the transport, in order; the register space merely keeps the bytes
(70_reset_and_hazards R235; log 26). -/
def otherWrites (ws : List (Addr × Byte)) (s : State) : State :=
  ws.foldl (fun t w => otherWrite w.1 w.2 t) s

/-- The requester programs the chip with a block (70_reset_and_hazards R235). -/
def setTime (b : RegisterBlock) (s : State) : State :=
  otherWrites (setTimeWrites b) s

end Sys2Proof.Machine
end

