-- ==== Sys2Proof/WellFormed.lean ====
section
/-! DEFINITION. Well-formedness. An instruction is well formed as it stands: `IMM` is 8 bits wide by its type, and an
out-of-range `IMM` is not ill formed, its row's rule raises an error (spec 30_encoding R64, R66). What has checks is the
configuration record: FIELD_TABLE must meet 42_bitfield_pack R130 (a) to (g), one check each. -/
namespace Sys2Proof

/-- Every instruction of the syntax is well formed (30_encoding R66: an out-of-range `IMM` is not reserved). -/
def Instr.wellFormed : Instr → Bool
  | .byte2bcd | .bcd2byte => true
  | .enctime _ | .dectime _ => true
  | .packdrive _ | .packloadcap _ | .packhourmode _ | .pack100th _ | .packbatsw _ => true
  | .unpackdrive | .unpackloadcap | .unpackhourmode | .unpack100th | .unpackbatsw => true
  | .setdrive _ | .setloadcap _ | .sethourmode _ | .set100th _ | .setbatsw _ => true
  | .getdrive | .getloadcap | .gethourmode | .get100th | .getbatsw => true

/-- `enc` and `dec` are finite maps: no key stands twice (42_bitfield_pack R130, "a finite map"). -/
def FieldSpec.mapsFunctional (f : FieldSpec) : Bool :=
  decide ((f.enc.map (·.1)).Nodup) && decide ((f.dec.map (·.1)).Nodup)

/-- R130 (a): the mask is not 0. -/
def FieldSpec.maskNonzero (f : FieldSpec) : Bool :=
  f.mask != 0

/-- R130 (b): every pattern lies inside the mask. -/
def FieldSpec.patternsInMask (f : FieldSpec) : Bool :=
  f.enc.all fun e => e.2 &&& ~~~f.mask == 0

/-- R130 (c): distinct options have distinct patterns. -/
def FieldSpec.patternsDistinct (f : FieldSpec) : Bool :=
  decide ((f.enc.map (·.2)).Nodup)

/-- R130 (d): `dec` gives back the option of every pattern. -/
def FieldSpec.decInvertsEnc (f : FieldSpec) : Bool :=
  f.enc.all fun e => f.dec.lookup e.2 == some e.1

/-- The checks of R130 that concern one field alone. -/
def FieldSpec.admissible (f : FieldSpec) : Bool :=
  f.mapsFunctional && f.maskNonzero && f.patternsInMask && f.patternsDistinct && f.decInvertsEnc

/-- R130 (e): fields at the same address (DRIVE, LOADCAP, HOURMODE, all at 0x25) have disjoint masks. -/
def FieldTable.masksDisjoint (t : FieldTable) : Bool :=
  t.drive.mask &&& t.loadcap.mask == 0 && t.drive.mask &&& t.hourmode.mask == 0 &&
    t.loadcap.mask &&& t.hourmode.mask == 0

/-- Exactly one bit of the byte is set. -/
def oneBitSet (m : Byte) : Bool :=
  [(0x01 : Byte), 0x02, 0x04, 0x08, 0x10, 0x20, 0x40, 0x80].contains m

/-- R130 (f): HOURMODE, HUNDREDTHS and BATSW are single bits. -/
def FieldTable.singleBits (t : FieldTable) : Bool :=
  oneBitSet t.hourmode.mask && oneBitSet t.hundredths.mask && oneBitSet t.batsw.mask

/-- `enc` is defined exactly on the two options given. -/
def FieldSpec.definedExactlyOn (f : FieldSpec) (o p : Byte) : Bool :=
  (f.enc.lookup o).isSome && (f.enc.lookup p).isSome && f.enc.all fun e => e.1 == o || e.1 == p

/-- R130 (g): HOURMODE's options are exactly 12 and 24, those of HUNDREDTHS and BATSW exactly 0 and 1. -/
def FieldTable.optionDomains (t : FieldTable) : Bool :=
  t.hourmode.definedExactlyOn 12 24 && t.hundredths.definedExactlyOn 0 1 && t.batsw.definedExactlyOn 0 1

/-- 42_bitfield_pack R130: all that a model may assume of FIELD_TABLE. -/
def FieldTable.admissible (t : FieldTable) : Bool :=
  t.drive.admissible && t.loadcap.admissible && t.hourmode.admissible && t.hundredths.admissible &&
    t.batsw.admissible && t.masksDisjoint && t.singleBits && t.optionDomains

end Sys2Proof
end

