-- ==== Sys2Proof/Safety.lean ====
section
/-! DEFINITION. What counts as a sound state and a safe run, in the terms the statements use: the invariant that every
step keeps, frames, and the premises a requester or a target may have to meet (spec 70_reset_and_hazards R234 to R241). -/
namespace Sys2Proof.Machine

/-- The three registers the block itself may touch (20_memory R32). -/
def blockMayTouch (a : Addr) : Bool :=
  a == 0x25 || a == 0x26 || a == 0x28

/-- The address of an observed transaction. -/
def txnAddr : BusTxn → Addr
  | .read a _ => a
  | .write a _ _ => a

/-- The field a bus operation is about. -/
def busOpField : BusOp → Field
  | .get f => f
  | .set f _ => f

/-- The bus port and the response port agree with the phase (10_state R12, R16; 20_memory R40): idle, nothing is
requested; pending, no response is valid and the request on the bus is the one the phase names. -/
def portsAgree (s : State) : Prop :=
  match s.phase with
  | .idle => s.bus.req = false
  | .readPending op =>
    s.out.rspValid = false ∧ s.bus.req = true ∧ s.bus.we = false ∧ s.bus.addr = fieldAddr (busOpField op)
  | .writePending f pat =>
    s.out.rspValid = false ∧
      (s.bus.req = true →
        s.bus.we = true ∧ s.bus.addr = fieldAddr f ∧ s.bus.wdata = pack s.config.table s.held f pat)

/-- The invariant of the machine: the register space is in its canonical form, the ports agree with the phase, a valid
response carries one of the six status codes (60_exceptions R190), and every transaction seen at the bus port was at one
of the three registers (20_memory R32). -/
structure Inv (s : State) : Prop where
  memory : Memory.wf s.target.reg = true
  ports  : portsAgree s
  status : s.out.rspValid = true → s.phase = .idle ∧ s.out.status.toNat ≤ 5
  bus    : ∀ t ∈ s.busLog, blockMayTouch (txnAddr t) = true

/-- Every register of the chip reads in `t` as in `s`: its byte in the array of the target, which under the oracle target is
the model's own (log 11, log 29). -/
def sameRegisters (s t : State) : Prop :=
  ∀ a : Addr, t.readReg a = s.readReg a

/-- Every register but the one at `a` reads in `t` as in `s`. -/
def sameRegistersBut (a : Addr) (s t : State) : Prop :=
  ∀ b : Addr, b ≠ a → t.readReg b = s.readReg b

/-- What no operation ever changes: the requester's ports (10_state R11), the configuration record (10_state R13) and
which target model answers (the model's choice, log 9). -/
def sameSurroundings (s t : State) : Prop :=
  t.inp = s.inp ∧ t.config = s.config ∧ t.target.model = s.target.model

/-- The block is idle again with a valid response of this status code (60_exceptions R190, R198). -/
def responded (t : State) (code : BitVec 3) : Prop :=
  t.phase = .idle ∧ t.bus.req = false ∧ t.out.rspValid = true ∧ t.out.status = code

/-- The frame of a pure operation (10_state R15): nothing outside the block is touched, and the surroundings stay. The
target model, the answers to come and the bus log are the model's own fields (log 9, log 10, log 16). -/
def pureFrame (s t : State) : Prop :=
  sameSurroundings s t ∧ sameRegisters s t ∧ t.target.answers = s.target.answers ∧ t.busLog = s.busLog

/-- The target answers every transaction at once and from the plain array (20_memory R51 (b)). -/
def storeTarget (s : State) : Prop :=
  s.target.model = .store

/-- The oracle target with these answers to come (20_memory R51 (a)). -/
def oracleWith (as : List BusAnswer) (s : State) : Prop :=
  s.target.model = .oracle ∧ s.target.answers = as

/-- `PACK<field> imm` (42_bitfield_pack section 3). -/
def packInstr (imm : Byte) : Field → Instr
  | .drive => .packdrive imm
  | .loadcap => .packloadcap imm
  | .hourmode => .packhourmode imm
  | .hundredths => .pack100th imm
  | .batsw => .packbatsw imm

/-- `UNPACK<field>` (42_bitfield_pack section 4). -/
def unpackInstr : Field → Instr
  | .drive => .unpackdrive
  | .loadcap => .unpackloadcap
  | .hourmode => .unpackhourmode
  | .hundredths => .unpack100th
  | .batsw => .unpackbatsw

/-- `SET<field> imm` (43_bitfield_rmw section 2). -/
def setInstr (imm : Byte) : Field → Instr
  | .drive => .setdrive imm
  | .loadcap => .setloadcap imm
  | .hourmode => .sethourmode imm
  | .hundredths => .set100th imm
  | .batsw => .setbatsw imm

/-- `GET<field>` (43_bitfield_rmw section 3). -/
def getInstr : Field → Instr
  | .drive => .getdrive
  | .loadcap => .getloadcap
  | .hourmode => .gethourmode
  | .hundredths => .get100th
  | .batsw => .getbatsw

/-- Groups 0 to 3 are pure, groups 4 and 5 use the bus (30_encoding R61). -/
def usesBus (i : Instr) : Bool :=
  decide (4 ≤ (cmdGrp (encode i)).toNat)

/-- The status code of an option the field does not define: `InvalidHourMode` for HOURMODE, `InvalidOption` for the
others (42_bitfield_pack R133). -/
def badOptionCode (f : Field) : BitVec 3 :=
  if f = .hourmode then errorCode .invalidHourMode else errorCode .invalidOption

end Sys2Proof.Machine
end

