-- ==== Sys2Proof/Certificates/Slice0/Obligations.lean ====
section
/-! DEFINITION. The statements for the provers, from the numbered rules of spec/. Ports the spec leaves unspecified are
never mentioned: they are free values (log 5). -/
open Sys2Proof Sys2Proof.Machine

/-! ### Reset (70_reset_and_hazards) -/

/-- R231, R11: after reset the phase is IDLE, `cmd_ready` is 1, `rsp_valid` and `bus_req` are 0. -/
def Obligations.ResetIsIdleAndQuiet : Prop :=
  State.reset.phase = .idle ∧ cmdReady State.reset = true ∧ State.reset.out.rspValid = false ∧
    State.reset.bus.req = false

/-- The state after reset meets the invariant of `EveryStepKeepsTheInvariant`. -/
def Obligations.ResetMeetsTheInvariant : Prop :=
  Inv State.reset

/-- R230, R231, R232: while `rst` is 1 the block is held in the reset state whatever it was doing: no response, no
request, the configuration record, the requester's ports and the oracle's answers unaffected. The chip is untouched, but
for the register of a write that was already requested, of whose content nothing is said.
(R232 leaves the target's view of an abandoned transaction to the transport: that the oracle's answers survive it is the
model's choice of log 13, that the target model stays that of log 9, that the observed transactions stay that of log 16.) -/
def Obligations.HeldInResetWhileRstIsHigh : Prop :=
  ∀ s : State, s.inp.rst = true →
    ∃ t, step s = .next t ∧ t.phase = .idle ∧ cmdReady t = true ∧ t.out.rspValid = false ∧ t.bus.req = false ∧
      sameSurroundings s t ∧ t.target.answers = s.target.answers ∧ t.busLog = s.busLog ∧
      (writeInFlight s = false → sameRegisters s t) ∧
      sameRegistersBut s.bus.addr s t

/-! ### The step -/

/-- The invariant of Safety.lean holds after every step that starts in it: canonical register space, ports that agree with
the phase, status codes 0 to 5 only, bus transactions at 0x25, 0x26 and 0x28 only. -/
def Obligations.EveryStepKeepsTheInvariant : Prop :=
  ∀ s t : State, Inv s → step s = .next t → Inv t

/-- R198, R243: the machine never stops: every state has a next state, waiting for an answer being a step that changes
nothing (the model's choice, log 15). -/
def Obligations.EveryStateHasANextState : Prop :=
  ∀ s : State, ∃ t, step s = .next t

/-- R12, R17: with `rst` 0, an idle block that is offered a command which decodes to `i` runs exactly `i` in this step. -/
def Obligations.StepRunsTheDecodedInstruction : Prop :=
  ∀ (s : State) (i : Instr), s.inp.rst = false → s.phase = .idle → s.inp.cmdValid = true →
    decode s.inp.cmd = .ok i → step s = exec i s

/-- The word of an instruction offered by `withFetchWord` is what the next step runs, from any state. -/
def Obligations.OfferedWordRunsNext : Prop :=
  ∀ (s : State) (i : Instr),
    step (s.withFetchWord 16 (encode i).toNat) = exec i (s.withFetchWord 16 (encode i).toNat)

/-- R12 and the model's choice of log 4: an idle block with no command offered and `rst` 0 stays as it is, a response
included. -/
def Obligations.IdleBlockWaitsForACommand : Prop :=
  ∀ s : State, s.inp.rst = false → s.phase = .idle → s.inp.cmdValid = false → step s = .next s

/-- R11, R13: no step changes the requester's ports or the configuration record. That none changes the target model
either is the model's choice of log 9. -/
def Obligations.NoStepChangesTheSurroundings : Prop :=
  ∀ s t : State, step s = .next t → sameSurroundings s t

/-- R10, R14: what an instruction leaves behind is a function of the ports, the configuration record and the target, never
of an earlier operation: two states that agree on these (and on the number of free values drawn) agree afterwards on every
port, the phase, the held byte and the target, and their bus saw the same new transactions. (That ports the spec leaves
unspecified agree too is the model's choice of log 24: equal draws give equal values.) -/
def Obligations.OperationsKeepNoMemoryOfEarlierOnes : Prop :=
  ∀ (i : Instr) (s s' t t' : State), s.inp = s'.inp → s.config = s'.config → s.target = s'.target →
    s.draws = s'.draws → exec i s = .next t → exec i s' = .next t' →
    t.out = t'.out ∧ t.phase = t'.phase ∧ t.held = t'.held ∧ t.bus = t'.bus ∧ t.target = t'.target ∧
      ∃ new, t.busLog = s.busLog ++ new ∧ t'.busLog = s'.busLog ++ new

/-! ### Command words (30_encoding) -/

/-- Decoding the encoding of any instruction, with any immediate, gives it back. -/
def Obligations.DecodeOfEncodeIsTheInstruction : Prop :=
  ∀ i : Instr, i.wellFormed = true → decode (encode i) = .ok i

/-- A word that decodes is the encoding of what it decodes to: no two words mean one instruction. -/
def Obligations.EncodeOfDecodeIsTheWord : Prop :=
  ∀ (w : CmdWord) (i : Instr), decode w = .ok i → encode i = w

/-- R63: a word decodes to an instruction of exactly the rows that select it by match and mask, no two rows overlap, and a
word that no row selects is reserved. -/
def Obligations.OpcodeMapSelectsByMatchAndMask : Prop :=
  (∀ (w : CmdWord) (i : Instr), decode w = .ok i → (opcodeRow i).selects w = true) ∧
    (∀ (w : CmdWord) (i : Instr), (opcodeRow i).selects w = true →
      ∃ j, decode w = .ok j ∧ opcodeRow j = opcodeRow i) ∧
    (∀ (w : CmdWord) (i j : Instr), (opcodeRow i).selects w = true → (opcodeRow j).selects w = true →
      opcodeRow i = opcodeRow j) ∧
    ∀ w : CmdWord, (∀ i : Instr, (opcodeRow i).selects w = false) → ∃ why, decode w = .error why

/-- R66: which words are reserved, by group, function and immediate; accepting one ends at once with `IllegalCommand`,
whatever the operand ports hold, with no bus transaction; an out-of-range `IMM` on a row that takes an option or a mode is
not reserved.
(That the steps from two settings of the operand ports agree on whole states, unspecified ports included, rests on log 24.) -/
def Obligations.ReservedWordsEndWithIllegalCommand : Prop :=
  (∀ w : CmdWord,
    (∃ why, decode w = .error why) ↔
      6 ≤ (cmdGrp w).toNat ∨ ((cmdGrp w).toNat ≤ 1 ∧ 2 ≤ (cmdFn w).toNat) ∨
        (2 ≤ (cmdGrp w).toNat ∧ (cmdGrp w).toNat ≤ 5 ∧ 5 ≤ (cmdFn w).toNat) ∨
        (((cmdGrp w).toNat = 0 ∨ (cmdGrp w).toNat = 3 ∨ (cmdGrp w).toNat = 5) ∧ cmdImm w ≠ 0)) ∧
    (∀ (s : State) (why : Reserved), s.inp.rst = false → s.phase = .idle → s.inp.cmdValid = true →
      decode s.inp.cmd = .error why →
      ∃ t, step s = .next t ∧ responded t 4 ∧ pureFrame s t ∧
        ∀ (a : Byte) (blk : BlockPort) (ts : TsIn),
          step { s with inp := { s.inp with a := a, blkIn := blk, tsIn := ts } } =
            .next { t with inp := { s.inp with a := a, blkIn := blk, tsIn := ts } }) ∧
    ∀ imm : Byte, decode (assembleWord 1 0 imm) = .ok (.enctime imm) ∧
      decode (assembleWord 1 1 imm) = .ok (.dectime imm) ∧
      ∀ f : Field, decode (encode (packInstr imm f)) = .ok (packInstr imm f) ∧
        decode (encode (setInstr imm f)) = .ok (setInstr imm f)

/-- R194: an idle block that accepts a command ends with `IllegalCommand` in that step exactly when the word is
reserved. -/
def Obligations.IllegalCommandExactlyForReservedWords : Prop :=
  ∀ s t : State, s.inp.rst = false → s.phase = .idle → s.inp.cmdValid = true → step s = .next t →
    ((t.out.rspValid = true ∧ t.out.status = 4) ↔ ∃ why, decode s.inp.cmd = .error why)

/-- The worked encodings of 30_encoding section 3, with one word of every family. -/
def Obligations.WorkedEncodingsDecode : Prop :=
  decode 0x0000 = .ok .byte2bcd ∧ decode 0x1118 = .ok (.dectime 24) ∧ decode 0x100C = .ok (.enctime 12) ∧
    decode 0x2101 = .ok (.packloadcap 1) ∧ decode 0x3200 = .ok .unpackhourmode ∧ decode 0x4002 = .ok (.setdrive 2) ∧
    decode 0x420C = .ok (.sethourmode 12) ∧ decode 0x5200 = .ok .gethourmode

/-- R70: each pseudo-instruction is exactly the command word shown, and is the instruction whose word that is. -/
def Obligations.PseudoInstructionsAreTheWordsShown : Prop :=
  encode pseudoEna100th = 0x4301 ∧ encode pseudoDis100th = 0x4300 ∧ encode pseudoEnabatsw = 0x4401 ∧
    encode pseudoDisbatsw = 0x4400 ∧ encode pseudoSetmode12 = 0x420C ∧ encode pseudoSetmode24 = 0x4218 ∧
    pseudoEna100th = .set100th 1 ∧ pseudoDis100th = .set100th 0 ∧ pseudoEnabatsw = .setbatsw 1 ∧
    pseudoDisbatsw = .setbatsw 0 ∧ pseudoSetmode12 = .sethourmode 12 ∧ pseudoSetmode24 = .sethourmode 24

/-! ### Errors (60_exceptions) -/

/-- R190: which operations can end with which error code, under any admissible table; codes 6 and 7 are never
produced. -/
def Obligations.ErrorCodesOnlyFromTheirOperations : Prop :=
  ∀ (i : Instr) (s t : State), s.config.table.admissible = true → exec i s = .next t → t.out.rspValid = true →
    (t.out.status = 1 →
      (∃ imm f, f ≠ .hourmode ∧ (i = packInstr imm f ∨ i = setInstr imm f)) ∨
        ∃ f, (f = .drive ∨ f = .loadcap) ∧ (i = unpackInstr f ∨ i = getInstr f)) ∧
    (t.out.status = 2 →
      ∃ imm, i = .enctime imm ∨ i = .dectime imm ∨ i = .packhourmode imm ∨ i = .sethourmode imm) ∧
    (t.out.status = 3 → i = .byte2bcd ∨ ∃ imm, i = .enctime imm) ∧
    (t.out.status = 5 → ∃ imm f, i = setInstr imm f ∨ i = getInstr f) ∧
    t.out.status.toNat ≤ 5

/-- R15, R61: an instruction of groups 0 to 3 responds in the step that runs it and touches nothing outside the block:
every chip register reads as before and the bus sees nothing. -/
def Obligations.PureOperationsTouchNothingOutside : Prop :=
  ∀ (i : Instr) (s : State), usesBus i = false →
    ∃ t, exec i s = .next t ∧ t.phase = .idle ∧ t.out.rspValid = true ∧ t.bus.req = false ∧ pureFrame s t

/-! ### Family BCD (40_bcd) -/

/-- R90: the formula on every byte, its range, and its range on valid BCD bytes. -/
def Obligations.BcdToByteIsTheFormula : Prop :=
  ∀ c : Byte, bcdToByte c = c.toNat % 16 + 10 * (c.toNat / 16) ∧ bcdToByte c ≤ 165 ∧
    (validBcd c = true → bcdToByte c ≤ 99)

/-- R94: the two directions of the BCD codec undo each other on 0 to 99 and on the valid BCD bytes, which makes
`ByteToBcd` a bijection between them; `BcdToByte` is not injective on all bytes. -/
def Obligations.BcdCodecLaws : Prop :=
  (∀ v : Nat, v < 100 → ∃ c, byteToBcd v = .ok c ∧ validBcd c = true ∧ bcdToByte c = v) ∧
    (∀ c : Byte, validBcd c = true → byteToBcd (bcdToByte c) = .ok c) ∧
    (∀ v w : Nat, ∀ c : Byte, byteToBcd v = .ok c → byteToBcd w = .ok c → v = w) ∧
    bcdToByte 0x0A = 10 ∧ bcdToByte 0x10 = 10 ∧ bcdToByte 0x9A = 100 ∧ bcdToByte 0xA0 = 100

/-- R92: `BCD2BYTE` always ends with `OK` and the formula's number on port `r`. -/
def Obligations.Bcd2byteDecodesEveryByte : Prop :=
  encode .bcd2byte = 0x0100 ∧
    ∀ s : State, ∃ t, exec .bcd2byte s = .next t ∧ responded t 0 ∧
      t.out.r.toNat = s.inp.a.toNat % 16 + 10 * (s.inp.a.toNat / 16) ∧ pureFrame s t

/-- R93: `BYTE2BCD` encodes 0 to 99 and ends with `OutOfRange` from 100 on. -/
def Obligations.Byte2bcdEncodesOrIsOutOfRange : Prop :=
  encode .byte2bcd = 0x0000 ∧
    ∀ s : State, ∃ t, exec .byte2bcd s = .next t ∧ pureFrame s t ∧
      if 100 ≤ s.inp.a.toNat then responded t 3
      else responded t 0 ∧ t.out.r.toNat = 16 * (s.inp.a.toNat / 10) + s.inp.a.toNat % 10

/-! ### Family TIME (41_time_codec) -/

/-- R107: the hour law in each mode, and its failure across modes. -/
def Obligations.HourLaw : Prop :=
  (∀ (h : Nat) (m : HourMode), h < 24 → ∃ b, encHour h m = .ok b ∧ decHour b m = h) ∧
    ∃ b, encHour 12 .h12 = .ok b ∧ b = 0x32 ∧ decHour b .h24 = 32

/-- R103: the hour decoded from every hours byte, by the three steps in their order, with its range in each mode and the
rule's examples. -/
def Obligations.DecHourFollowsTheThreeSteps : Prop :=
  (∀ b : Byte, decHour b .h24 = bcdToByte b ∧
    decHour b .h12 =
      (if bcdToByte (b &&& 0xDF) = 12 then 0 else bcdToByte (b &&& 0xDF)) + (if b[5] then 12 else 0) ∧
    decHour b .h24 ≤ 165 ∧ decHour b .h12 ≤ 157) ∧
    decHour 0x32 .h12 = 12 ∧ decHour 0x12 .h12 = 0 ∧ decHour 0x20 .h12 = 12 ∧ decHour 0x3F .h12 = 37

/-- R104: `ENCTIME` of a valid Timestamp in mode 12 or 24 ends with `OK`; each byte of `blk_out` is the code of its
field, the hours byte by `EncHour`, the year byte of year less 2000. -/
def Obligations.EnctimeEncodesEveryField : Prop :=
  ∀ (imm : Byte) (m : HourMode) (s : State), hourModeOf imm = .ok m → validTimestamp s.inp.tsIn = true →
    ∃ t, exec (.enctime imm) s = .next t ∧ responded t 0 ∧ pureFrame s t ∧
      byteToBcd s.inp.tsIn.hundredth.toNat = .ok (blockByte t.out.blkOut 0) ∧
      byteToBcd s.inp.tsIn.second.toNat = .ok (blockByte t.out.blkOut 1) ∧
      byteToBcd s.inp.tsIn.minute.toNat = .ok (blockByte t.out.blkOut 2) ∧
      encHour s.inp.tsIn.hour.toNat m = .ok (blockByte t.out.blkOut 3) ∧
      byteToBcd s.inp.tsIn.day.toNat = .ok (blockByte t.out.blkOut 4) ∧
      byteToBcd s.inp.tsIn.weekday.toNat = .ok (blockByte t.out.blkOut 5) ∧
      byteToBcd s.inp.tsIn.month.toNat = .ok (blockByte t.out.blkOut 6) ∧
      byteToBcd (s.inp.tsIn.year.toNat - 2000) = .ok (blockByte t.out.blkOut 7) ∧
      validBlock (blockOfPort t.out.blkOut) m = true

/-- R104, R108, R192, R197: `ENCTIME` with another mode ends with `InvalidHourMode` whatever the Timestamp; with mode 12
or 24 it ends with `OutOfRange` exactly when some field is out of its range. -/
def Obligations.EnctimeErrorsInOrder : Prop :=
  ∀ (imm : Byte) (s : State), ∃ t, exec (.enctime imm) s = .next t ∧ pureFrame s t ∧
    responded t
      (if imm.toNat ≠ 12 ∧ imm.toNat ≠ 24 then 2
      else if s.inp.tsIn.year.toNat < 2000 ∨ 2099 < s.inp.tsIn.year.toNat ∨
          s.inp.tsIn.month.toNat < 1 ∨ 12 < s.inp.tsIn.month.toNat ∨
          s.inp.tsIn.day.toNat < 1 ∨ 6 < s.inp.tsIn.weekday.toNat ∨ 23 < s.inp.tsIn.hour.toNat ∨
          59 < s.inp.tsIn.minute.toNat ∨ 59 < s.inp.tsIn.second.toNat ∨ 99 < s.inp.tsIn.hundredth.toNat then 3
      else 0)

/-- R105, R109: `DECTIME` in mode 12 or 24 ends with `OK` on every block, valid or not: each field is the formula's number
of its byte, and the text is the rendering wherever it is specified. -/
def Obligations.DectimeDecodesEveryBlock : Prop :=
  ∀ (imm : Byte) (m : HourMode) (s : State), hourModeOf imm = .ok m →
    ∃ t, exec (.dectime imm) s = .next t ∧ responded t 0 ∧ pureFrame s t ∧
      t.out.tsOut.hundredth.toNat = bcdToByte (blockByte s.inp.blkIn 0) ∧
      t.out.tsOut.second.toNat = bcdToByte (blockByte s.inp.blkIn 1) ∧
      t.out.tsOut.minute.toNat = bcdToByte (blockByte s.inp.blkIn 2) ∧
      t.out.tsOut.hour.toNat = decHour (blockByte s.inp.blkIn 3) m ∧
      t.out.tsOut.day.toNat = bcdToByte (blockByte s.inp.blkIn 4) ∧
      t.out.tsOut.weekday.toNat = bcdToByte (blockByte s.inp.blkIn 5) ∧
      t.out.tsOut.month.toNat = bcdToByte (blockByte s.inp.blkIn 6) ∧
      t.out.tsOut.year.toNat = 2000 + bcdToByte (blockByte s.inp.blkIn 7) ∧
      ∀ txt, render t.out.tsOut = some txt → t.out.txtOut = txt

/-- R105, R192: a mode that is neither 12 nor 24 is the one failure of `DECTIME`, whatever the block. -/
def Obligations.DectimeFailsOnlyOnItsMode : Prop :=
  ∀ (imm : Byte) (s : State), ∃ t, exec (.dectime imm) s = .next t ∧ pureFrame s t ∧
    responded t (if imm = 12 ∨ imm = 24 then 0 else 2)

/-- R106: where the six two-digit fields are below 100 the text is the 23 characters of the layout, with leading zeros
everywhere but in the hundredths, whose one digit is followed by `0`; elsewhere the text is unspecified. -/
def Obligations.RenderedTextLayout : Prop :=
  (∀ t : TsOut, renderable t = true →
    ∃ txt, render t = some txt ∧
      textChar txt 0 = digitChar (t.year.toNat / 1000) ∧ textChar txt 1 = digitChar (t.year.toNat / 100) ∧
      textChar txt 2 = digitChar (t.year.toNat / 10) ∧ textChar txt 3 = digitChar t.year.toNat ∧
      textChar txt 4 = 0x2D ∧ textChar txt 5 = digitChar (t.month.toNat / 10) ∧
      textChar txt 6 = digitChar t.month.toNat ∧ textChar txt 7 = 0x2D ∧
      textChar txt 8 = digitChar (t.day.toNat / 10) ∧ textChar txt 9 = digitChar t.day.toNat ∧
      textChar txt 10 = 0x54 ∧ textChar txt 11 = digitChar (t.hour.toNat / 10) ∧
      textChar txt 12 = digitChar t.hour.toNat ∧ textChar txt 13 = 0x3A ∧
      textChar txt 14 = digitChar (t.minute.toNat / 10) ∧ textChar txt 15 = digitChar t.minute.toNat ∧
      textChar txt 16 = 0x3A ∧ textChar txt 17 = digitChar (t.second.toNat / 10) ∧
      textChar txt 18 = digitChar t.second.toNat ∧ textChar txt 19 = 0x2E ∧
      (10 ≤ t.hundredth.toNat →
        textChar txt 20 = digitChar (t.hundredth.toNat / 10) ∧ textChar txt 21 = digitChar t.hundredth.toNat) ∧
      (t.hundredth.toNat < 10 → textChar txt 20 = digitChar t.hundredth.toNat ∧ textChar txt 21 = 0x30) ∧
      textChar txt 22 = 0x5A) ∧
    ∀ t : TsOut, renderable t = false → render t = none

/-- R110: for every valid Timestamp and each mode, `ENCTIME` succeeds and `DECTIME` of its result in the same mode, by a
block in any state, returns the Timestamp field by field; on the text a hundredth below 10 shows its digit before the pad.
The converse: `ENCTIME` of what was decoded gives the block again. It fails for blocks no `ENCTIME` produces: in mode 12 the
hours bytes 0x00 and 0x20. -/
def Obligations.TimeRoundTrip : Prop :=
  (∀ (imm : Byte) (s : State), imm = 12 ∨ imm = 24 → validTimestamp s.inp.tsIn = true →
    ∃ t, exec (.enctime imm) s = .next t ∧ responded t 0 ∧
      ∀ s' : State, s'.inp.blkIn = t.out.blkOut →
        ∃ t', exec (.dectime imm) s' = .next t' ∧ responded t' 0 ∧
          t'.out.tsOut.year.toNat = s.inp.tsIn.year.toNat ∧ t'.out.tsOut.month.toNat = s.inp.tsIn.month.toNat ∧
          t'.out.tsOut.day.toNat = s.inp.tsIn.day.toNat ∧ t'.out.tsOut.weekday.toNat = s.inp.tsIn.weekday.toNat ∧
          t'.out.tsOut.hour.toNat = s.inp.tsIn.hour.toNat ∧ t'.out.tsOut.minute.toNat = s.inp.tsIn.minute.toNat ∧
          t'.out.tsOut.second.toNat = s.inp.tsIn.second.toNat ∧
          t'.out.tsOut.hundredth.toNat = s.inp.tsIn.hundredth.toNat ∧
          (s.inp.tsIn.hundredth.toNat < 10 →
            textChar t'.out.txtOut 20 = digitChar s.inp.tsIn.hundredth.toNat ∧ textChar t'.out.txtOut 21 = 0x30) ∧
          ∀ s'' : State, s''.inp.tsIn.year.toNat = t'.out.tsOut.year.toNat →
            s''.inp.tsIn.month.toNat = t'.out.tsOut.month.toNat → s''.inp.tsIn.day.toNat = t'.out.tsOut.day.toNat →
            s''.inp.tsIn.weekday.toNat = t'.out.tsOut.weekday.toNat →
            s''.inp.tsIn.hour.toNat = t'.out.tsOut.hour.toNat →
            s''.inp.tsIn.minute.toNat = t'.out.tsOut.minute.toNat →
            s''.inp.tsIn.second.toNat = t'.out.tsOut.second.toNat →
            s''.inp.tsIn.hundredth.toNat = t'.out.tsOut.hundredth.toNat →
            ∃ t'', exec (.enctime imm) s'' = .next t'' ∧ responded t'' 0 ∧ t''.out.blkOut = t.out.blkOut) ∧
    decHour 0x00 .h12 = 0 ∧ encHour 0 .h12 = .ok 0x12 ∧ decHour 0x20 .h12 = 12 ∧ encHour 12 .h12 = .ok 0x32

/-! ### Family PACK (42_bitfield_pack) -/

/-- R130: the default table meets the constraints (a) to (g). -/
def Obligations.DefaultTableIsAdmissible : Prop :=
  defaultTable.admissible = true

/-- R131: every bit outside the mask stays, the bits inside the mask are the pattern's, whatever the old byte held. -/
def Obligations.PackReplacesTheFieldBitsOnly : Prop :=
  ∀ (t : FieldTable) (f : Field) (o pat old : Byte), t.admissible = true → (fieldSpec t f).enc.lookup o = some pat →
    pack t old f pat = (old &&& ~~~(fieldSpec t f).mask) ||| pat ∧
      pack t old f pat &&& ~~~(fieldSpec t f).mask = old &&& ~~~(fieldSpec t f).mask ∧
      pack t old f pat &&& (fieldSpec t f).mask = pat

/-- R149: preservation, isolation, read-back, idempotence, last write wins and commutation, for every admissible table,
byte, fields and options. -/
def Obligations.PackLaws : Prop :=
  ∀ (t : FieldTable) (f g : Field) (o p pf pf' pg b : Byte), t.admissible = true →
    (fieldSpec t f).enc.lookup o = some pf → (fieldSpec t f).enc.lookup p = some pf' →
    pack t b f pf &&& ~~~(fieldSpec t f).mask = b &&& ~~~(fieldSpec t f).mask ∧
      (fieldAddr f = fieldAddr g → f ≠ g → unpack t (pack t b f pf) g = unpack t b g) ∧
      unpack t (pack t b f pf) f = .ok o ∧
      pack t (pack t b f pf) f pf = pack t b f pf ∧
      pack t (pack t b f pf) f pf' = pack t b f pf' ∧
      (∀ q, (fieldSpec t g).enc.lookup q = some pg → fieldAddr f = fieldAddr g → f ≠ g →
        pack t (pack t b f pf) g pg = pack t (pack t b g pg) f pf)

/-- R131, R133, R139 to R143: each `PACK*` ends with `OK` and the packed byte on `r` when its `IMM` is an option of the
field, and with `InvalidOption` (HOURMODE: `InvalidHourMode`) when it is not. -/
def Obligations.PackOperations : Prop :=
  ∀ (f : Field) (imm : Byte) (s : State), ∃ t, exec (packInstr imm f) s = .next t ∧ pureFrame s t ∧
    (∀ pat, (fieldSpec s.config.table f).enc.lookup imm = some pat →
      responded t 0 ∧ t.out.r = (s.inp.a &&& ~~~(fieldSpec s.config.table f).mask) ||| pat) ∧
    ((fieldSpec s.config.table f).enc.lookup imm = none → responded t (badOptionCode f))

/-- R132, R144 to R148: each `UNPACK*` ends with `OK` and the option the field's bits name on `r`, and with
`InvalidOption` when they name none. -/
def Obligations.UnpackOperations : Prop :=
  ∀ (f : Field) (s : State), ∃ t, exec (unpackInstr f) s = .next t ∧ pureFrame s t ∧
    (∀ o, (fieldSpec s.config.table f).dec.lookup (s.inp.a &&& (fieldSpec s.config.table f).mask) = some o →
      responded t 0 ∧ t.out.r = o) ∧
    ((fieldSpec s.config.table f).dec.lookup (s.inp.a &&& (fieldSpec s.config.table f).mask) = none →
      responded t 1)

/-- 42_bitfield_pack section 4, R169: under any admissible table the three one-bit fields name an option at every byte, and
the option is one of the two the table has. -/
def Obligations.OneBitFieldsAlwaysNameAnOption : Prop :=
  ∀ (t : FieldTable) (b : Byte), t.admissible = true →
    (unpack t b .hourmode = .ok 12 ∨ unpack t b .hourmode = .ok 24) ∧
      (unpack t b .hundredths = .ok 0 ∨ unpack t b .hundredths = .ok 1) ∧
      (unpack t b .batsw = .ok 0 ∨ unpack t b .batsw = .ok 1)

/-- R191, R192 and 30_encoding R65: which immediates `OptionPattern` rejects; HOURMODE, HUNDREDTHS and BATSW under any
admissible table, DRIVE and LOADCAP under the default one. -/
def Obligations.ImmediatesThatNameNoOption : Prop :=
  (∀ (t : FieldTable) (imm : Byte), t.admissible = true →
    (optionPattern t .hourmode imm = .error .invalidHourMode ↔ imm ≠ 12 ∧ imm ≠ 24) ∧
      (optionPattern t .hundredths imm = .error .invalidOption ↔ 2 ≤ imm.toNat) ∧
      (optionPattern t .batsw imm = .error .invalidOption ↔ 2 ≤ imm.toNat)) ∧
    ∀ imm : Byte,
      (optionPattern defaultTable .drive imm = .error .invalidOption ↔ 3 ≤ imm.toNat) ∧
        (optionPattern defaultTable .loadcap imm = .error .invalidOption ↔ 3 ≤ imm.toNat)

/-! ### Family RMW (43_bitfield_rmw) -/

/-- R160 and R173 (first three laws): on the store target a `SET*` with an option of its field ends with `OK`, after
exactly one read and one write at the field's address: that register holds the packed byte, every other register reads as
before. -/
def Obligations.SetOnTheStoreTarget : Prop :=
  ∀ (f : Field) (imm pat : Byte) (s : State), storeTarget s → Memory.wf s.target.reg = true →
    (fieldSpec s.config.table f).enc.lookup imm = some pat →
    ∃ t, exec (setInstr imm f) s = .next t ∧ responded t 0 ∧ sameSurroundings s t ∧
      t.readReg (fieldAddr f) = pack s.config.table (s.readReg (fieldAddr f)) f pat ∧
      sameRegistersBut (fieldAddr f) s t ∧ t.target.answers = s.target.answers ∧
      t.busLog = s.busLog ++
        [.read (fieldAddr f) (some (s.readReg (fieldAddr f))),
          .write (fieldAddr f) (pack s.config.table (s.readReg (fieldAddr f)) f pat) true]

/-- R160, R173 (last sentence): on the oracle target, whatever byte the read returns, the byte written is that byte with
the field's bits replaced, and the write is issued also when it changes nothing. That the acknowledged byte then stands in
the register is the model's choice (log 11) and is not stated.
That the read changes no register is the model's choice (log 29). -/
def Obligations.SetOnTheOracleTarget : Prop :=
  ∀ (f : Field) (imm pat x y : Byte) (rest : List BusAnswer) (s : State),
    oracleWith (⟨false, x⟩ :: ⟨false, y⟩ :: rest) s →
    (fieldSpec s.config.table f).enc.lookup imm = some pat →
    ∃ t, exec (setInstr imm f) s = .next t ∧ responded t 0 ∧ sameSurroundings s t ∧
      sameRegistersBut (fieldAddr f) s t ∧ t.target.answers = rest ∧
      t.busLog = s.busLog ++
        [.read (fieldAddr f) (some x), .write (fieldAddr f) (pack s.config.table x f pat) true]

/-- R160 (a), R172, R197 (second step): a `SET*` whose `IMM` is no option of its field ends with `InvalidOption` (HOURMODE:
`InvalidHourMode`), whatever the target: no bus traffic at all. -/
def Obligations.SetWithABadOptionNeverTouchesTheBus : Prop :=
  ∀ (f : Field) (imm : Byte) (s : State), (fieldSpec s.config.table f).enc.lookup imm = none →
    ∃ t, exec (setInstr imm f) s = .next t ∧ responded t (badOptionCode f) ∧ pureFrame s t

/-- R172, R195, R199: a failed read ends a `SET*` with `BusError`: one failed read, no write, every register as before.
(That the failed read itself changes no register is the model's choice, log 29.) -/
def Obligations.FailedReadEndsSetWithoutWrite : Prop :=
  ∀ (f : Field) (imm pat x : Byte) (rest : List BusAnswer) (s : State), oracleWith (⟨true, x⟩ :: rest) s →
    (fieldSpec s.config.table f).enc.lookup imm = some pat →
    ∃ t, exec (setInstr imm f) s = .next t ∧ responded t 5 ∧ sameSurroundings s t ∧ sameRegisters s t ∧
      t.target.answers = rest ∧ t.busLog = s.busLog ++ [.read (fieldAddr f) none]

/-- R172, R195, R199: a failed write ends a `SET*` with `BusError`, without a retry; every other register is as before, and
nothing is said of the register written to.
(That the read changes no register is the model's choice, log 29.) -/
def Obligations.FailedWriteEndsSetWithBusError : Prop :=
  ∀ (f : Field) (imm pat x y : Byte) (rest : List BusAnswer) (s : State),
    oracleWith (⟨false, x⟩ :: ⟨true, y⟩ :: rest) s →
    (fieldSpec s.config.table f).enc.lookup imm = some pat →
    ∃ t, exec (setInstr imm f) s = .next t ∧ responded t 5 ∧ sameSurroundings s t ∧
      sameRegistersBut (fieldAddr f) s t ∧ t.target.answers = rest ∧
      t.busLog = s.busLog ++
        [.read (fieldAddr f) (some x), .write (fieldAddr f) (pack s.config.table x f pat) false]

/-- R166: on the store target a `GET*` reads the field's register once, writes nothing, and ends with the option the bits
name on `r`, or with `InvalidOption` when they name none. -/
def Obligations.GetOnTheStoreTarget : Prop :=
  ∀ (f : Field) (s : State), storeTarget s →
    ∃ t, exec (getInstr f) s = .next t ∧ sameSurroundings s t ∧ sameRegisters s t ∧
      t.target.answers = s.target.answers ∧
      t.busLog = s.busLog ++ [.read (fieldAddr f) (some (s.readReg (fieldAddr f)))] ∧
      (∀ o, unpack s.config.table (s.readReg (fieldAddr f)) f = .ok o → responded t 0 ∧ t.out.r = o) ∧
      ∀ e, unpack s.config.table (s.readReg (fieldAddr f)) f = .error e → responded t 1

/-- R166, R172, R195: on the oracle target a `GET*` ends with what the answer's byte unpacks to, with `InvalidOption` when
it names no option, and with `BusError` when the read fails; it never writes.
(That the read changes no register is the model's choice, log 29.) -/
def Obligations.GetOnTheOracleTarget : Prop :=
  ∀ (f : Field) (ans : BusAnswer) (rest : List BusAnswer) (s : State), oracleWith (ans :: rest) s →
    ∃ t, exec (getInstr f) s = .next t ∧ sameSurroundings s t ∧ sameRegisters s t ∧ t.target.answers = rest ∧
      (ans.err = true → responded t 5 ∧ t.busLog = s.busLog ++ [.read (fieldAddr f) none]) ∧
      (ans.err = false →
        t.busLog = s.busLog ++ [.read (fieldAddr f) (some ans.rdata)] ∧
          (∀ o, unpack s.config.table ans.rdata f = .ok o → responded t 0 ∧ t.out.r = o) ∧
          ∀ e, unpack s.config.table ans.rdata f = .error e → responded t 1)

/-- R173 (last two laws): on the store target, after a `SET*` of field `f` to option `o`, a `GET*` of `f` returns `o`, and a
`GET*` of another field at the same address returns what it would have returned before. -/
def Obligations.SetThenGetOnTheStoreTarget : Prop :=
  ∀ (f g : Field) (o pat : Byte) (s : State), storeTarget s → Memory.wf s.target.reg = true →
    s.config.table.admissible = true → (fieldSpec s.config.table f).enc.lookup o = some pat →
    ∃ t, exec (setInstr o f) s = .next t ∧ responded t 0 ∧
      (∃ u, exec (getInstr f) t = .next u ∧ responded u 0 ∧ u.out.r = o) ∧
      (fieldAddr g = fieldAddr f → g ≠ f →
        ∃ u v, exec (getInstr g) t = .next u ∧ exec (getInstr g) s = .next v ∧ u.out.rspValid = true ∧
          v.out.rspValid = true ∧ u.out.status = v.out.status ∧ (v.out.status = 0 → u.out.r = v.out.r))

/-- R241: an operation whose read the target does not answer stays pending with its request on the bus and no response;
a pending operation without an answer is left as it is by every step while `rst` is 0; `rst` frees the block.
(That waiting is a step that leaves the whole state as it is, is the model's choice of log 15, with log 5 for the unspecified
ports and log 10 for the empty list that means unanswered; 93_implementation_defined U3 calls such a state stuck.) -/
def Obligations.UnansweredTransactionHangs : Prop :=
  (∀ (f : Field) (s : State), oracleWith [] s →
    ∃ t, exec (getInstr f) s = .next t ∧ t.phase = .readPending (.get f) ∧ cmdReady t = false ∧ t.bus.req = true ∧
      t.bus.we = false ∧ t.bus.addr = fieldAddr f ∧ t.out.rspValid = false ∧ pureFrame s t) ∧
    (∀ (f : Field) (imm pat : Byte) (s : State), oracleWith [] s →
      (fieldSpec s.config.table f).enc.lookup imm = some pat →
      ∃ t, exec (setInstr imm f) s = .next t ∧ t.phase = .readPending (.set f pat) ∧ cmdReady t = false ∧
        t.bus.req = true ∧ t.bus.we = false ∧ t.bus.addr = fieldAddr f ∧ t.out.rspValid = false ∧
        pureFrame s t) ∧
    (∀ s : State, s.inp.rst = false → s.phase ≠ .idle → s.bus.req = true → oracleWith [] s → step s = .next s) ∧
    ∀ s : State, ∃ t, step (driveRst true s) = .next t ∧ cmdReady t = true ∧ t.out.rspValid = false ∧
      t.bus.req = false

/-- R40, R16: answers that come after the operation went pending bring it to the same state as answers that were there when
it was accepted. (Equality of whole states, unspecified ports included, rests on log 24.) -/
def Obligations.LateAnswersEndTheSame : Prop :=
  ∀ (f : Field) (imm pat : Byte) (as : List BusAnswer) (s : State), s.inp.rst = false → oracleWith [] s →
    (fieldSpec s.config.table f).enc.lookup imm = some pat →
    (∀ t, exec (getInstr f) s = .next t → step (targetAnswers as t) = exec (getInstr f) (targetAnswers as s)) ∧
      ∀ t, exec (setInstr imm f) s = .next t → step (targetAnswers as t) = exec (setInstr imm f) (targetAnswers as s)

/-- R17, R12: once an operation is in flight, what the requester puts on its ports (`rst` apart) has no effect on it: no
other command is accepted and the step ends in the same state but for those ports. -/
def Obligations.OperandsAreSampledAtAcceptance : Prop :=
  ∀ (s t : State) (inp : Inputs), s.phase ≠ .idle → s.inp.rst = false → inp.rst = false → step s = .next t →
    step { s with inp := inp } = .next { t with inp := inp }

/-- R45, R237: a `SET*` is not atomic. Its read has been answered with `x`; then the chip or another master writes any byte
`z` to the same register; the write, once answered, stores the byte computed from `x`, and the operation reports `OK`: the
other change is lost. (P6 of 95_test_vectors; that an acknowledged byte stands in the register is log 11, that
the read changes no register log 29.) -/
def Obligations.LostUpdate : Prop :=
  ∀ (f : Field) (imm pat x y z : Byte) (s : State), s.inp.rst = false → oracleWith [⟨false, x⟩] s →
    Memory.wf s.target.reg = true → (fieldSpec s.config.table f).enc.lookup imm = some pat →
    ∃ t, exec (setInstr imm f) s = .next t ∧ t.phase = .writePending f pat ∧ t.held = x ∧ t.bus.req = true ∧
      t.bus.wdata = pack s.config.table x f pat ∧ sameRegisters s t ∧
      ∃ u, step (targetAnswers [⟨false, y⟩] (otherWrite (fieldAddr f) z t)) = .next u ∧ responded u 0 ∧
        u.readReg (fieldAddr f) = pack s.config.table x f pat ∧ sameRegistersBut (fieldAddr f) s u

/-- R32, R47: whatever the instruction, operands, configuration and target, the new transactions an instruction puts on the
bus are at 0x25, 0x26 or 0x28, follow the earlier ones, and are at most two; so does a step that goes on with a pending
operation, in every state of the invariant. -/
def Obligations.BusTrafficStaysAtTheThreeRegisters : Prop :=
  (∀ (i : Instr) (s t : State), exec i s = .next t →
    ∃ new, t.busLog = s.busLog ++ new ∧ new.length ≤ 2 ∧ (∀ x ∈ new, blockMayTouch (txnAddr x) = true) ∧
      (t.bus.req = true → blockMayTouch t.bus.addr = true)) ∧
    ∀ s t : State, Inv s → step s = .next t →
      ∃ new, t.busLog = s.busLog ++ new ∧ new.length ≤ 2 ∧ (∀ x ∈ new, blockMayTouch (txnAddr x) = true) ∧
        (t.bus.req = true → blockMayTouch t.bus.addr = true)

/-- R34 to R36 with the default layout (PRESUMED, log 18 and log 27): a `SET*` on the store target leaves every other named
field of the configuration registers as it was, those the block never operates on included. -/
def Obligations.SetPreservesEveryOtherNamedField : Prop :=
  ∀ (f : Field) (c : ChipField) (imm pat : Byte) (s : State), storeTarget s → Memory.wf s.target.reg = true →
    s.config.table = defaultTable → (fieldSpec defaultTable f).enc.lookup imm = some pat → c ≠ chipFieldOf f →
    ∃ t, exec (setInstr imm f) s = .next t ∧ responded t 0 ∧
      t.readReg (chipAddr (chipFieldRegister c)) &&& chipFieldMask c =
        s.readReg (chipAddr (chipFieldRegister c)) &&& chipFieldMask c

/-- R68, R234 (e): the `r` of a `GETHOURMODE` that ends with `OK`, under any admissible table, is a mode that `DECTIME` and
`ENCTIME` accept, so `DECTIME` of any block in that mode ends with `OK`. -/
def Obligations.HourModeReadFeedsTheTimeCodec : Prop :=
  ∀ (s t s' : State), s.config.table.admissible = true → exec .gethourmode s = .next t → t.out.rspValid = true →
    t.out.status = 0 → ∃ t', exec (.dectime t.out.r) s' = .next t' ∧ responded t' 0

/-- R235: the requester's set-time sequence stops the clock first, then clears the prescaler, then writes the eight bytes in
block order at 0x00 to 0x07, and restarts the clock last; after it the time block reads as the block written. (The values
of the stop bit are PRESUMED, log 26, and not stated.)
(That the time block reads as the plain array, whatever the target model, is the model's choice: log 26, log 30.) -/
def Obligations.SetTimeSequenceOrder : Prop :=
  (∀ b : RegisterBlock, (setTimeWrites b).map (·.1) =
    [0x2E, 0x2F, 0x00, 0x01, 0x02, 0x03, 0x04, 0x05, 0x06, 0x07, 0x2E] ∧
      (setTimeWrites b)[1]? = some (0x2F, 0xA4)) ∧
    ∀ (b : RegisterBlock) (s : State), Memory.wf s.target.reg = true → readTimeBlock (setTime b s) = b
end

