-- ==== Sys2Proof/Laws/Decode.lean ====
section
/-! SUPPORT. Building a command word from its three fields and reading them back. -/
namespace Sys2Proof

@[simp] theorem cmdGrp_assembleWord (g f : BitVec 4) (m : Byte) : cmdGrp (assembleWord g f m) = g := by
  simp only [cmdGrp, assembleWord]
  rw [BitVec.append_assoc]
  exact BitVec.extractLsb'_append_eq_left

@[simp] theorem cmdFn_assembleWord (g f : BitVec 4) (m : Byte) : cmdFn (assembleWord g f m) = f :=
  (BitVec.extractLsb'_append_eq_of_le (by omega)).trans BitVec.extractLsb'_append_eq_right

@[simp] theorem cmdImm_assembleWord (g f : BitVec 4) (m : Byte) : cmdImm (assembleWord g f m) = m :=
  BitVec.extractLsb'_append_eq_right

/-- A word is built from its own fields. -/
theorem assembleWord_fields (w : CmdWord) : assembleWord (cmdGrp w) (cmdFn w) (cmdImm w) = w := by
  apply BitVec.eq_of_getLsbD_eq
  intro i hi
  simp only [assembleWord, cmdGrp, cmdFn, cmdImm, BitVec.getLsbD_append, BitVec.getLsbD_extractLsb']
  split
  · simp [*]
  · split
    · rename_i h1 h2
      simp only [h2, decide_true, Bool.true_and]
      congr 1
      omega
    · have h3 : i - 8 - 4 < 4 := by omega
      simp only [h3, decide_true, Bool.true_and]
      congr 1
      omega

/-- Decoding a word built from fields looks at these fields. -/
theorem decode_assembleWord (g f : BitVec 4) (m : Byte) :
    decode (assembleWord g f m) = decodeFields g.toNat f.toNat m := by
  simp [decode]

/-- A word built from fields keeps its high byte under the mask of a row with an immediate. -/
theorem assembleWord_high (g f : BitVec 4) (m : Byte) : assembleWord g f m &&& 0xFF00 = assembleWord g f 0 := by
  apply BitVec.eq_of_getLsbD_eq
  intro i hi
  have hm : (0xFF00 : CmdWord).getLsbD i = decide (8 ≤ i) := by
    interval_cases i <;> rfl
  simp only [assembleWord, BitVec.getLsbD_and, BitVec.getLsbD_append, hm]
  by_cases h8 : i < 8
  · simp [h8, show ¬8 ≤ i by omega]
  · simp [h8, show 8 ≤ i by omega]

end Sys2Proof
end

