-- ==== Sys2Proof/Laws/State.lean ====
section
/-! SUPPORT. One lemma per field of State and per update of it, true by rfl, so that no proof unfolds a record update. -/
namespace Sys2Proof.Machine

/-! `respond` -/

@[simp] theorem respond_inp (s : State) (code : BitVec 3) (res : Result) : (respond s code res).inp = s.inp := rfl
@[simp] theorem respond_out (s : State) (code : BitVec 3) (res : Result) :
    (respond s code res).out = driveResult (unspecifiedOutputs s.draws true code) res := rfl
@[simp] theorem respond_phase (s : State) (code : BitVec 3) (res : Result) : (respond s code res).phase = .idle := rfl
@[simp] theorem respond_held (s : State) (code : BitVec 3) (res : Result) :
    (respond s code res).held = Config.freeHeld s.draws := rfl
@[simp] theorem respond_bus (s : State) (code : BitVec 3) (res : Result) :
    (respond s code res).bus = releasedBus s.draws := rfl
@[simp] theorem respond_config (s : State) (code : BitVec 3) (res : Result) :
    (respond s code res).config = s.config := rfl
@[simp] theorem respond_target (s : State) (code : BitVec 3) (res : Result) :
    (respond s code res).target = s.target := rfl
@[simp] theorem respond_draws (s : State) (code : BitVec 3) (res : Result) :
    (respond s code res).draws = s.draws + 1 := rfl
@[simp] theorem respond_busLog (s : State) (code : BitVec 3) (res : Result) :
    (respond s code res).busLog = s.busLog := rfl

/-! `finish` -/

@[simp] theorem finish_inp (s : State) (res : Result) : (finish s res).inp = s.inp := rfl
@[simp] theorem finish_out (s : State) (res : Result) :
    (finish s res).out = driveResult (unspecifiedOutputs s.draws true statusOk) res := rfl
@[simp] theorem finish_phase (s : State) (res : Result) : (finish s res).phase = .idle := rfl
@[simp] theorem finish_held (s : State) (res : Result) : (finish s res).held = Config.freeHeld s.draws := rfl
@[simp] theorem finish_bus (s : State) (res : Result) : (finish s res).bus = releasedBus s.draws := rfl
@[simp] theorem finish_config (s : State) (res : Result) : (finish s res).config = s.config := rfl
@[simp] theorem finish_target (s : State) (res : Result) : (finish s res).target = s.target := rfl
@[simp] theorem finish_draws (s : State) (res : Result) : (finish s res).draws = s.draws + 1 := rfl
@[simp] theorem finish_busLog (s : State) (res : Result) : (finish s res).busLog = s.busLog := rfl

/-! `raise` -/

@[simp] theorem raise_inp (s : State) (e : OpError) : (raise s e).inp = s.inp := rfl
@[simp] theorem raise_out (s : State) (e : OpError) :
    (raise s e).out = unspecifiedOutputs s.draws true (errorCode e) := rfl
@[simp] theorem raise_phase (s : State) (e : OpError) : (raise s e).phase = .idle := rfl
@[simp] theorem raise_held (s : State) (e : OpError) : (raise s e).held = Config.freeHeld s.draws := rfl
@[simp] theorem raise_bus (s : State) (e : OpError) : (raise s e).bus = releasedBus s.draws := rfl
@[simp] theorem raise_config (s : State) (e : OpError) : (raise s e).config = s.config := rfl
@[simp] theorem raise_target (s : State) (e : OpError) : (raise s e).target = s.target := rfl
@[simp] theorem raise_draws (s : State) (e : OpError) : (raise s e).draws = s.draws + 1 := rfl
@[simp] theorem raise_busLog (s : State) (e : OpError) : (raise s e).busLog = s.busLog := rfl

/-! `illegalCommand` -/

@[simp] theorem illegalCommand_inp (s : State) : (illegalCommand s).inp = s.inp := rfl
@[simp] theorem illegalCommand_out (s : State) : (illegalCommand s).out = unspecifiedOutputs s.draws true 4 := rfl
@[simp] theorem illegalCommand_phase (s : State) : (illegalCommand s).phase = .idle := rfl
@[simp] theorem illegalCommand_held (s : State) : (illegalCommand s).held = Config.freeHeld s.draws := rfl
@[simp] theorem illegalCommand_bus (s : State) : (illegalCommand s).bus = releasedBus s.draws := rfl
@[simp] theorem illegalCommand_config (s : State) : (illegalCommand s).config = s.config := rfl
@[simp] theorem illegalCommand_target (s : State) : (illegalCommand s).target = s.target := rfl
@[simp] theorem illegalCommand_draws (s : State) : (illegalCommand s).draws = s.draws + 1 := rfl
@[simp] theorem illegalCommand_busLog (s : State) : (illegalCommand s).busLog = s.busLog := rfl

/-! `requestRead` -/

@[simp] theorem requestRead_inp (op : BusOp) (s : State) : (requestRead op s).inp = s.inp := rfl
@[simp] theorem requestRead_out (op : BusOp) (s : State) :
    (requestRead op s).out = unspecifiedOutputs s.draws false (Config.freeStatus s.draws) := rfl
@[simp] theorem requestRead_phase (op : BusOp) (s : State) : (requestRead op s).phase = .readPending op := rfl
@[simp] theorem requestRead_held (op : BusOp) (s : State) : (requestRead op s).held = Config.freeHeld s.draws := rfl
@[simp] theorem requestRead_config (op : BusOp) (s : State) : (requestRead op s).config = s.config := rfl
@[simp] theorem requestRead_target (op : BusOp) (s : State) : (requestRead op s).target = s.target := rfl
@[simp] theorem requestRead_draws (op : BusOp) (s : State) : (requestRead op s).draws = s.draws + 1 := rfl
@[simp] theorem requestRead_busLog (op : BusOp) (s : State) : (requestRead op s).busLog = s.busLog := rfl

/-! `requestWrite` -/

@[simp] theorem requestWrite_inp (f : Field) (pat : Byte) (s : State) : (requestWrite f pat s).inp = s.inp := rfl
@[simp] theorem requestWrite_out (f : Field) (pat : Byte) (s : State) : (requestWrite f pat s).out = s.out := rfl
@[simp] theorem requestWrite_phase (f : Field) (pat : Byte) (s : State) :
    (requestWrite f pat s).phase = .writePending f pat := rfl
@[simp] theorem requestWrite_held (f : Field) (pat : Byte) (s : State) : (requestWrite f pat s).held = s.held := rfl
@[simp] theorem requestWrite_bus (f : Field) (pat : Byte) (s : State) :
    (requestWrite f pat s).bus = ⟨true, true, fieldAddr f, pack s.config.table s.held f pat⟩ := rfl
@[simp] theorem requestWrite_config (f : Field) (pat : Byte) (s : State) :
    (requestWrite f pat s).config = s.config := rfl
@[simp] theorem requestWrite_target (f : Field) (pat : Byte) (s : State) :
    (requestWrite f pat s).target = s.target := rfl
@[simp] theorem requestWrite_draws (f : Field) (pat : Byte) (s : State) : (requestWrite f pat s).draws = s.draws := rfl
@[simp] theorem requestWrite_busLog (f : Field) (pat : Byte) (s : State) :
    (requestWrite f pat s).busLog = s.busLog := rfl

/-! `settle` -/

@[simp] theorem settle_inp (s : State) (a : BusAnswer) : (settle s a).inp = s.inp := rfl
@[simp] theorem settle_out (s : State) (a : BusAnswer) : (settle s a).out = s.out := rfl
@[simp] theorem settle_phase (s : State) (a : BusAnswer) : (settle s a).phase = s.phase := rfl
@[simp] theorem settle_held (s : State) (a : BusAnswer) : (settle s a).held = s.held := rfl
@[simp] theorem settle_bus (s : State) (a : BusAnswer) : (settle s a).bus = { s.bus with req := false } := rfl
@[simp] theorem settle_config (s : State) (a : BusAnswer) : (settle s a).config = s.config := rfl
@[simp] theorem settle_draws (s : State) (a : BusAnswer) : (settle s a).draws = s.draws := rfl
@[simp] theorem settle_busLog (s : State) (a : BusAnswer) :
    (settle s a).busLog = s.busLog ++ [observedTxn s.bus a] := rfl

/-! `resetBlock` -/

@[simp] theorem resetBlock_inp (s : State) : (resetBlock s).inp = s.inp := rfl
@[simp] theorem resetBlock_out (s : State) :
    (resetBlock s).out = unspecifiedOutputs s.draws false (Config.freeStatus s.draws) := rfl
@[simp] theorem resetBlock_phase (s : State) : (resetBlock s).phase = .idle := rfl
@[simp] theorem resetBlock_held (s : State) : (resetBlock s).held = Config.freeHeld s.draws := rfl
@[simp] theorem resetBlock_bus (s : State) : (resetBlock s).bus = releasedBus s.draws := rfl
@[simp] theorem resetBlock_config (s : State) : (resetBlock s).config = s.config := rfl
@[simp] theorem resetBlock_draws (s : State) : (resetBlock s).draws = s.draws + 1 := rfl
@[simp] theorem resetBlock_busLog (s : State) : (resetBlock s).busLog = s.busLog := rfl

/-! `withFetchWord` -/

@[simp] theorem withFetchWord_out (s : State) (nbits w : Nat) : (s.withFetchWord nbits w).out = s.out := rfl
@[simp] theorem withFetchWord_phase (s : State) (nbits w : Nat) : (s.withFetchWord nbits w).phase = .idle := rfl
@[simp] theorem withFetchWord_held (s : State) (nbits w : Nat) : (s.withFetchWord nbits w).held = s.held := rfl
@[simp] theorem withFetchWord_bus (s : State) (nbits w : Nat) : (s.withFetchWord nbits w).bus = s.bus := rfl
@[simp] theorem withFetchWord_config (s : State) (nbits w : Nat) : (s.withFetchWord nbits w).config = s.config := rfl
@[simp] theorem withFetchWord_target (s : State) (nbits w : Nat) : (s.withFetchWord nbits w).target = s.target := rfl
@[simp] theorem withFetchWord_draws (s : State) (nbits w : Nat) : (s.withFetchWord nbits w).draws = s.draws := rfl
@[simp] theorem withFetchWord_busLog (s : State) (nbits w : Nat) : (s.withFetchWord nbits w).busLog = s.busLog := rfl

/-! `driveRst` -/

@[simp] theorem driveRst_inp (l : Bool) (s : State) : (driveRst l s).inp = { s.inp with rst := l } := rfl
@[simp] theorem driveRst_out (l : Bool) (s : State) : (driveRst l s).out = s.out := rfl
@[simp] theorem driveRst_phase (l : Bool) (s : State) : (driveRst l s).phase = s.phase := rfl
@[simp] theorem driveRst_held (l : Bool) (s : State) : (driveRst l s).held = s.held := rfl
@[simp] theorem driveRst_bus (l : Bool) (s : State) : (driveRst l s).bus = s.bus := rfl
@[simp] theorem driveRst_config (l : Bool) (s : State) : (driveRst l s).config = s.config := rfl
@[simp] theorem driveRst_target (l : Bool) (s : State) : (driveRst l s).target = s.target := rfl
@[simp] theorem driveRst_draws (l : Bool) (s : State) : (driveRst l s).draws = s.draws := rfl
@[simp] theorem driveRst_busLog (l : Bool) (s : State) : (driveRst l s).busLog = s.busLog := rfl

/-! `withdraw` -/

@[simp] theorem withdraw_inp (s : State) : (withdraw s).inp = { s.inp with cmdValid := false } := rfl
@[simp] theorem withdraw_out (s : State) : (withdraw s).out = s.out := rfl
@[simp] theorem withdraw_phase (s : State) : (withdraw s).phase = s.phase := rfl
@[simp] theorem withdraw_held (s : State) : (withdraw s).held = s.held := rfl
@[simp] theorem withdraw_bus (s : State) : (withdraw s).bus = s.bus := rfl
@[simp] theorem withdraw_config (s : State) : (withdraw s).config = s.config := rfl
@[simp] theorem withdraw_target (s : State) : (withdraw s).target = s.target := rfl
@[simp] theorem withdraw_draws (s : State) : (withdraw s).draws = s.draws := rfl
@[simp] theorem withdraw_busLog (s : State) : (withdraw s).busLog = s.busLog := rfl

/-! `offer` -/

@[simp] theorem offer_inp (i : Instr) (a : Byte) (blk : BlockPort) (ts : TsIn) (s : State) :
    (offer i a blk ts s).inp = { s.inp with cmdValid := true, cmd := encode i, a := a, blkIn := blk, tsIn := ts } := rfl
@[simp] theorem offer_out (i : Instr) (a : Byte) (blk : BlockPort) (ts : TsIn) (s : State) :
    (offer i a blk ts s).out = s.out := rfl
@[simp] theorem offer_phase (i : Instr) (a : Byte) (blk : BlockPort) (ts : TsIn) (s : State) :
    (offer i a blk ts s).phase = s.phase := rfl
@[simp] theorem offer_held (i : Instr) (a : Byte) (blk : BlockPort) (ts : TsIn) (s : State) :
    (offer i a blk ts s).held = s.held := rfl
@[simp] theorem offer_bus (i : Instr) (a : Byte) (blk : BlockPort) (ts : TsIn) (s : State) :
    (offer i a blk ts s).bus = s.bus := rfl
@[simp] theorem offer_config (i : Instr) (a : Byte) (blk : BlockPort) (ts : TsIn) (s : State) :
    (offer i a blk ts s).config = s.config := rfl
@[simp] theorem offer_target (i : Instr) (a : Byte) (blk : BlockPort) (ts : TsIn) (s : State) :
    (offer i a blk ts s).target = s.target := rfl
@[simp] theorem offer_draws (i : Instr) (a : Byte) (blk : BlockPort) (ts : TsIn) (s : State) :
    (offer i a blk ts s).draws = s.draws := rfl
@[simp] theorem offer_busLog (i : Instr) (a : Byte) (blk : BlockPort) (ts : TsIn) (s : State) :
    (offer i a blk ts s).busLog = s.busLog := rfl

/-! `targetAnswers` -/

@[simp] theorem targetAnswers_inp (as : List BusAnswer) (s : State) : (targetAnswers as s).inp = s.inp := rfl
@[simp] theorem targetAnswers_out (as : List BusAnswer) (s : State) : (targetAnswers as s).out = s.out := rfl
@[simp] theorem targetAnswers_phase (as : List BusAnswer) (s : State) : (targetAnswers as s).phase = s.phase := rfl
@[simp] theorem targetAnswers_held (as : List BusAnswer) (s : State) : (targetAnswers as s).held = s.held := rfl
@[simp] theorem targetAnswers_bus (as : List BusAnswer) (s : State) : (targetAnswers as s).bus = s.bus := rfl
@[simp] theorem targetAnswers_config (as : List BusAnswer) (s : State) : (targetAnswers as s).config = s.config := rfl
@[simp] theorem targetAnswers_target (as : List BusAnswer) (s : State) :
    (targetAnswers as s).target = { s.target with answers := s.target.answers ++ as } := rfl
@[simp] theorem targetAnswers_draws (as : List BusAnswer) (s : State) : (targetAnswers as s).draws = s.draws := rfl
@[simp] theorem targetAnswers_busLog (as : List BusAnswer) (s : State) : (targetAnswers as s).busLog = s.busLog := rfl

/-! `otherWrite` -/

@[simp] theorem otherWrite_inp (a : Addr) (b : Byte) (s : State) : (otherWrite a b s).inp = s.inp := rfl
@[simp] theorem otherWrite_out (a : Addr) (b : Byte) (s : State) : (otherWrite a b s).out = s.out := rfl
@[simp] theorem otherWrite_phase (a : Addr) (b : Byte) (s : State) : (otherWrite a b s).phase = s.phase := rfl
@[simp] theorem otherWrite_held (a : Addr) (b : Byte) (s : State) : (otherWrite a b s).held = s.held := rfl
@[simp] theorem otherWrite_bus (a : Addr) (b : Byte) (s : State) : (otherWrite a b s).bus = s.bus := rfl
@[simp] theorem otherWrite_config (a : Addr) (b : Byte) (s : State) : (otherWrite a b s).config = s.config := rfl
@[simp] theorem otherWrite_target (a : Addr) (b : Byte) (s : State) :
    (otherWrite a b s).target = { s.target with reg := memWrite s.target.reg a.toNat b } := rfl
@[simp] theorem otherWrite_draws (a : Addr) (b : Byte) (s : State) : (otherWrite a b s).draws = s.draws := rfl
@[simp] theorem otherWrite_busLog (a : Addr) (b : Byte) (s : State) : (otherWrite a b s).busLog = s.busLog := rfl

/-! The parts of `bus`, `target` and `inp` the updates above change in part. -/

@[simp] theorem requestRead_bus_req (op : BusOp) (s : State) : (requestRead op s).bus.req = true := rfl
@[simp] theorem requestRead_bus_we (op : BusOp) (s : State) : (requestRead op s).bus.we = false := rfl
@[simp] theorem requestRead_bus_addr_get (f : Field) (s : State) :
    (requestRead (.get f) s).bus.addr = fieldAddr f := rfl
@[simp] theorem requestRead_bus_addr_set (f : Field) (pat : Byte) (s : State) :
    (requestRead (.set f pat) s).bus.addr = fieldAddr f := rfl
@[simp] theorem settle_target_model (s : State) (a : BusAnswer) :
    (settle s a).target.model = s.target.model := rfl
@[simp] theorem settle_target_reg (s : State) (a : BusAnswer) : (settle s a).target.reg = regAfter s a := rfl
@[simp] theorem resetBlock_target_model (s : State) : (resetBlock s).target.model = s.target.model := rfl
@[simp] theorem resetBlock_target_answers (s : State) : (resetBlock s).target.answers = s.target.answers := rfl
@[simp] theorem withFetchWord_inp_rst (s : State) (nbits w : Nat) :
    (s.withFetchWord nbits w).inp.rst = false := rfl
@[simp] theorem withFetchWord_inp_cmdValid (s : State) (nbits w : Nat) :
    (s.withFetchWord nbits w).inp.cmdValid = true := rfl
@[simp] theorem withFetchWord_inp_cmd (s : State) (nbits w : Nat) :
    (s.withFetchWord nbits w).inp.cmd = BitVec.ofNat 16 (w % 2 ^ nbits) := rfl
@[simp] theorem releasedBus_req (n : Nat) : (releasedBus n).req = false := rfl
@[simp] theorem unspecifiedOutputs_rspValid (n : Nat) (v : Bool) (c : BitVec 3) :
    (unspecifiedOutputs n v c).rspValid = v := rfl
@[simp] theorem unspecifiedOutputs_status (n : Nat) (v : Bool) (c : BitVec 3) :
    (unspecifiedOutputs n v c).status = c := rfl

/-! `driveResult` leaves what it does not name. -/

@[simp] theorem driveResult_rspValid (o : Outputs) (res : Result) :
    (driveResult o res).rspValid = o.rspValid := by
  cases res with
  | time t txt => cases txt <;> rfl
  | _ => rfl

@[simp] theorem driveResult_status (o : Outputs) (res : Result) : (driveResult o res).status = o.status := by
  cases res with
  | time t txt => cases txt <;> rfl
  | _ => rfl

@[simp] theorem driveResult_byte_r (o : Outputs) (b : Byte) : (driveResult o (.byte b)).r = b := rfl

@[simp] theorem driveResult_block_blkOut (o : Outputs) (p : BlockPort) :
    (driveResult o (.block p)).blkOut = p := rfl

@[simp] theorem driveResult_time_tsOut (o : Outputs) (t : TsOut) (txt : Option TextPort) :
    (driveResult o (.time t txt)).tsOut = t := by
  cases txt <;> rfl

@[simp] theorem driveResult_time_txtOut (o : Outputs) (t : TsOut) (txt : TextPort) :
    (driveResult o (.time t (some txt))).txtOut = txt := rfl

end Sys2Proof.Machine
end

