-- ==== Sys2Proof/Laws/Memory.lean ====
section
/-! SUPPORT. The laws of the register space: read after write, every other register as before, the canonical form kept by
every operation, and equal register spaces equal data. -/
namespace Sys2Proof.Machine

theorem memRead_below {lo : Nat} {m : Memory} {a : Nat} (h : wfFrom lo m = true) (ha : a < lo) :
    memRead m a = unlistedByte := by
  induction m generalizing lo with
  | nil => rfl
  | cons e rest ih =>
    obtain ⟨k, b⟩ := e
    simp only [wfFrom, Bool.and_eq_true, decide_eq_true_eq] at h
    have hk : a ≠ k := by omega
    simp only [memRead, if_neg hk]
    exact ih h.2 (by omega)

theorem wfFrom_mono {lo lo' : Nat} {m : Memory} (h : wfFrom lo m = true) (hl : lo' ≤ lo) : wfFrom lo' m = true := by
  cases m with
  | nil => rfl
  | cons e rest =>
    obtain ⟨k, b⟩ := e
    simp only [wfFrom, Bool.and_eq_true, decide_eq_true_eq] at h ⊢
    exact ⟨⟨⟨by omega, h.1.1.2⟩, h.1.2⟩, h.2⟩

theorem memRead_memWrite_self {lo : Nat} {m : Memory} (a : Nat) (v : Byte) (h : wfFrom lo m = true) :
    memRead (memWrite m a v) a = v := by
  induction m generalizing lo with
  | nil => by_cases hv : v = unlistedByte <;> simp [memWrite, memRead, hv]
  | cons e rest ih =>
    obtain ⟨k, b⟩ := e
    simp only [wfFrom, Bool.and_eq_true, decide_eq_true_eq] at h
    by_cases hv : v = unlistedByte
    · subst hv
      rcases Nat.lt_trichotomy a k with hlt | heq | hgt
      · have hk : a ≠ k := by omega
        simp [memWrite, memRead, hlt, hk, memRead_below h.2 (show a < k + 1 by omega)]
      · subst heq
        simp [memWrite, memRead_below h.2 (show a < a + 1 by omega)]
      · have hk : a ≠ k := by omega
        have hl : ¬a < k := by omega
        simpa [memWrite, memRead, hl, hk] using ih h.2
    · rcases Nat.lt_trichotomy a k with hlt | heq | hgt
      · simp [memWrite, memRead, hlt, hv]
      · subst heq
        simp [memWrite, memRead, hv]
      · have hk : a ≠ k := by omega
        have hl : ¬a < k := by omega
        simpa [memWrite, memRead, hl, hk] using ih h.2

theorem memRead_memWrite_other (m : Memory) {a c : Nat} (v : Byte) (h : c ≠ a) :
    memRead (memWrite m a v) c = memRead m c := by
  induction m with
  | nil => by_cases hv : v = unlistedByte <;> simp [memWrite, memRead, hv, h]
  | cons e rest ih =>
    obtain ⟨k, b⟩ := e
    by_cases hlt : a < k
    · by_cases hv : v = unlistedByte <;> simp [memWrite, memRead, hlt, hv, h]
    · by_cases heq : a = k
      · subst heq
        by_cases hv : v = unlistedByte <;> simp [memWrite, memRead, hv, h]
      · simp [memWrite, memRead, hlt, heq, ih]

theorem wfFrom_memWrite {lo : Nat} {m : Memory} (a : Nat) (v : Byte) (h : wfFrom lo m = true) (hl : lo ≤ a)
    (ha : a < 256) : wfFrom lo (memWrite m a v) = true := by
  induction m generalizing lo with
  | nil =>
    by_cases hv : v = unlistedByte
    · simp [memWrite, hv, wfFrom]
    · simp [memWrite, hv, wfFrom, hl, ha]
  | cons e rest ih =>
    obtain ⟨k, b⟩ := e
    have h' := h
    simp only [wfFrom, Bool.and_eq_true, decide_eq_true_eq] at h
    obtain ⟨⟨⟨h1, h2⟩, h3⟩, h4⟩ := h
    rcases Nat.lt_trichotomy a k with hlt | heq | hgt
    · by_cases hv : v = unlistedByte
      · simpa [memWrite, hlt, hv] using h'
      · have : wfFrom (a + 1) ((k, b) :: rest) = true := by
          simp only [wfFrom, Bool.and_eq_true, decide_eq_true_eq]
          exact ⟨⟨⟨by omega, h2⟩, h3⟩, h4⟩
        have hb : (v != unlistedByte) = true := by simpa using hv
        rw [memWrite, if_pos hlt, if_neg hv, wfFrom, this, hb]
        simp [hl, ha]
    · subst heq
      by_cases hv : v = unlistedByte
      · simpa [memWrite, hv] using wfFrom_mono h4 (show lo ≤ a + 1 by omega)
      · simp [memWrite, hv, wfFrom, hl, ha, h4]
    · have hk : a ≠ k := by omega
      have hl' : ¬a < k := by omega
      simp only [memWrite, if_neg hl', if_neg hk, wfFrom, Bool.and_eq_true, decide_eq_true_eq]
      exact ⟨⟨⟨h1, h2⟩, h3⟩, ih h4 (by omega)⟩

/-- Writing keeps the canonical form. -/
theorem memWrite_keeps_wf {m : Memory} (a : Addr) (v : Byte) (h : Memory.wf m = true) :
    Memory.wf (memWrite m a.toNat v) = true :=
  wfFrom_memWrite a.toNat v h (Nat.zero_le _) a.isLt

/-- Reading back what was just written, in a canonical register space. -/
theorem memRead_memWrite_same {m : Memory} (a : Addr) (v : Byte) (h : Memory.wf m = true) :
    memRead (memWrite m a.toNat v) a.toNat = v :=
  memRead_memWrite_self a.toNat v h

/-- A write leaves every other register alone, canonical form or not. -/
theorem memRead_memWrite_ne (m : Memory) {a c : Addr} (v : Byte) (h : c ≠ a) :
    memRead (memWrite m a.toNat v) c.toNat = memRead m c.toNat :=
  memRead_memWrite_other m v fun e => h (BitVec.eq_of_toNat_eq e)

/-- Canonical register spaces that read alike everywhere are one list. -/
theorem memory_ext {lo : Nat} {m n : Memory} (hm : wfFrom lo m = true) (hn : wfFrom lo n = true)
    (h : ∀ a, memRead m a = memRead n a) : m = n := by
  induction m generalizing lo n with
  | nil =>
    cases n with
    | nil => rfl
    | cons e rest =>
      obtain ⟨k, b⟩ := e
      simp only [wfFrom, Bool.and_eq_true, decide_eq_true_eq, bne_iff_ne, ne_eq] at hn
      have hk := h k
      simp only [memRead, if_pos] at hk
      exact absurd hk.symm hn.1.2
  | cons e rest ih =>
    obtain ⟨k, b⟩ := e
    have hm' := hm
    simp only [wfFrom, Bool.and_eq_true, decide_eq_true_eq, bne_iff_ne, ne_eq] at hm
    cases n with
    | nil =>
      have hk := h k
      simp only [memRead, if_pos] at hk
      exact absurd hk hm.1.2
    | cons e' rest' =>
      obtain ⟨k', b'⟩ := e'
      have hn' := hn
      simp only [wfFrom, Bool.and_eq_true, decide_eq_true_eq, bne_iff_ne, ne_eq] at hn
      rcases Nat.lt_trichotomy k k' with hlt | heq | hgt
      · have hk := h k
        have hne : k ≠ k' := by omega
        simp only [memRead, if_pos, if_neg hne, memRead_below hn.2 (show k < k' + 1 by omega)] at hk
        exact absurd hk hm.1.2
      · subst heq
        have hb : b = b' := by simpa [memRead] using h k
        subst hb
        have hr : rest = rest' := by
          refine ih hm.2 hn.2 fun a => ?_
          by_cases ha : a = k
          · subst ha
            rw [memRead_below hm.2 (by omega), memRead_below hn.2 (by omega)]
          · simpa [memRead, ha] using h a
        rw [hr]
      · have hk := h k'
        have hne : k' ≠ k := by omega
        simp only [memRead, if_pos, if_neg hne, memRead_below hm.2 (show k' < k + 1 by omega)] at hk
        exact absurd hk.symm hn.1.2

/-- Answering a transaction keeps the canonical form. -/
theorem regAfter_keeps_wf (s : State) (a : BusAnswer) (h : Memory.wf s.target.reg = true) :
    Memory.wf (regAfter s a) = true := by
  unfold regAfter
  split
  · exact memWrite_keeps_wf _ _ h
  · exact h

/-- Reset keeps the canonical form. -/
theorem resetBlock_keeps_wf (s : State) (h : Memory.wf s.target.reg = true) :
    Memory.wf (resetBlock s).target.reg = true := by
  by_cases hw : writeInFlight s = true
  · simpa [resetBlock, hw] using memWrite_keeps_wf s.bus.addr _ h
  · simpa [resetBlock, hw] using h

/-- A change from outside keeps the canonical form. -/
theorem otherWrite_keeps_wf (a : Addr) (b : Byte) (s : State) (h : Memory.wf s.target.reg = true) :
    Memory.wf (otherWrite a b s).target.reg = true :=
  memWrite_keeps_wf a b h

/-- The register space of the reset state is in its canonical form. -/
theorem reset_memory_wf : Memory.wf State.reset.target.reg = true := rfl

end Sys2Proof.Machine
end

