-- ==== Sys2Proof/Laws/Operands.lean ====
section
/-! SUPPORT. Small lemmas of the pure functions: ports and their bytes, the text port and its characters, ranges. -/
namespace Sys2Proof.Machine

/-! ### Bytes of a port -/

theorem extract_skip {n : Nat} (x : BitVec n) (b : Byte) (k : Nat) :
    (x ++ b).extractLsb' (8 * (k + 1)) 8 = x.extractLsb' (8 * k) 8 := by
  rw [BitVec.extractLsb'_append_eq_of_le (by omega)]
  congr 1

theorem extract_last {n : Nat} (x : BitVec n) (b : Byte) : (x ++ b).extractLsb' (8 * 0) 8 = b :=
  BitVec.extractLsb'_append_eq_right

/-- The bytes of a block's port value are the block's bytes (20_memory R42). -/
theorem blockOfPort_portOfBlock (b : RegisterBlock) : blockOfPort (portOfBlock b) = b := by
  have h0 : blockByte (portOfBlock b) 0 = b.hundredths := extract_last _ _
  have h1 : blockByte (portOfBlock b) 1 = b.seconds := (extract_skip _ _ 0).trans (extract_last _ _)
  have h2 : blockByte (portOfBlock b) 2 = b.minutes :=
    (extract_skip _ _ 1).trans <| (extract_skip _ _ 0).trans (extract_last _ _)
  have h3 : blockByte (portOfBlock b) 3 = b.hours :=
    (extract_skip _ _ 2).trans <| (extract_skip _ _ 1).trans <| (extract_skip _ _ 0).trans (extract_last _ _)
  have h4 : blockByte (portOfBlock b) 4 = b.day :=
    (extract_skip _ _ 3).trans <| (extract_skip _ _ 2).trans <| (extract_skip _ _ 1).trans <|
      (extract_skip _ _ 0).trans (extract_last _ _)
  have h5 : blockByte (portOfBlock b) 5 = b.weekday :=
    (extract_skip _ _ 4).trans <| (extract_skip _ _ 3).trans <| (extract_skip _ _ 2).trans <|
      (extract_skip _ _ 1).trans <| (extract_skip _ _ 0).trans (extract_last _ _)
  have h6 : blockByte (portOfBlock b) 6 = b.month :=
    (extract_skip _ _ 5).trans <| (extract_skip _ _ 4).trans <| (extract_skip _ _ 3).trans <|
      (extract_skip _ _ 2).trans <| (extract_skip _ _ 1).trans <| (extract_skip _ _ 0).trans (extract_last _ _)
  have h7 : blockByte (portOfBlock b) 7 = b.year :=
    (extract_skip _ _ 6).trans <| (extract_skip _ _ 5).trans <| (extract_skip _ _ 4).trans <|
      (extract_skip _ _ 3).trans <| (extract_skip _ _ 2).trans <| (extract_skip _ _ 1).trans <|
        (extract_skip _ _ 0).trans BitVec.extractLsb'_eq_self
  simp only [blockOfPort, h0, h1, h2, h3, h4, h5, h6, h7]

/-- Character 0 of a packed text is its first character. -/
theorem textChar_packText_zero (c : Byte) (cs : List Byte) : textChar (packText (c :: cs)) 0 = c := by
  apply BitVec.eq_of_getLsbD_eq
  intro i hi
  simp only [textChar, packText, List.foldr_cons, BitVec.getLsbD_extractLsb', BitVec.getLsbD_or,
    BitVec.getLsbD_shiftLeft, BitVec.getLsbD_setWidth]
  simp [hi, show i < 184 by omega]

/-- The later characters of a packed text are those of its rest, as far as the port reaches. -/
theorem textChar_packText_succ (c : Byte) (cs : List Byte) (k : Nat) (h : k + 1 < 23) :
    textChar (packText (c :: cs)) (k + 1) = textChar (packText cs) k := by
  apply BitVec.eq_of_getLsbD_eq
  intro i hi
  simp only [textChar, packText, List.foldr_cons, BitVec.getLsbD_extractLsb', BitVec.getLsbD_or,
    BitVec.getLsbD_shiftLeft, BitVec.getLsbD_setWidth]
  have h1 : 8 * (k + 1) + i < 184 := by omega
  have h2 : ¬8 * (k + 1) + i < 8 := by omega
  have h3 : 8 * (k + 1) + i - 8 = 8 * k + i := by omega
  have h4 : c.getLsbD (8 * (k + 1) + i) = false := BitVec.getLsbD_of_ge _ _ (by omega)
  simp [h1, h2, h3, h4, hi]

/-- Character `k` of the text port is the `k`-th character packed (41_time_codec R106). -/
theorem textChar_packText (cs : List Byte) (k : Nat) (hk : k < 23) (hl : k < cs.length) :
    textChar (packText cs) k = cs[k] := by
  induction cs generalizing k with
  | nil => simp at hl
  | cons c cs ih =>
    cases k with
    | zero => exact textChar_packText_zero c cs
    | succ k => rw [textChar_packText_succ c cs k hk]; exact ih k (by omega) (by simpa using hl)

/-! ### Ranges -/

theorem byteToBcd_of_lt {v : Nat} (h : v < 100) :
    byteToBcd v = .ok ((BitVec.ofNat 8 (v / 10) <<< 4) ||| BitVec.ofNat 8 (v % 10)) := by
  simp [byteToBcd, h]

theorem byteToBcd_of_ge {v : Nat} (h : 100 ≤ v) : byteToBcd v = .error .outOfRange := by
  simp [byteToBcd, show ¬v < 100 by omega]

/-- The two modes an immediate can name. -/
theorem hourModeOf_cases (imm : Byte) :
    (imm = 12 ∧ hourModeOf imm = .ok .h12) ∨ (imm = 24 ∧ hourModeOf imm = .ok .h24) ∨
      (imm ≠ 12 ∧ imm ≠ 24 ∧ hourModeOf imm = .error .invalidHourMode) := by
  by_cases h1 : imm = 12
  · exact .inl ⟨h1, by simp [hourModeOf, h1]⟩
  · by_cases h2 : imm = 24
    · exact .inr (.inl ⟨h2, by simp [hourModeOf, h2]⟩)
    · exact .inr (.inr ⟨h1, h2, by rw [hourModeOf, if_neg h1, if_neg h2]⟩)

end Sys2Proof.Machine
end

