-- ==== Sys2Proof/Laws/Ops.lean ====
section
/-! SUPPORT. For each shared operation, once, everything it can do: the lemmas the proofs cite instead of unfolding. -/
namespace Sys2Proof.Machine

/-! ### Ending an operation -/

@[simp] theorem conclude_ok (s : State) (res : Result) : conclude s (.ok res) = finish s res := rfl

@[simp] theorem conclude_error (s : State) (e : OpError) : conclude s (.error e) = raise s e := rfl

/-- What `conclude` can do: end with `OK` and the results, or take the error. -/
theorem conclude_cases (s : State) (x : Except OpError Result) :
    (∃ res, x = .ok res ∧ conclude s x = finish s res) ∨ ∃ e, x = .error e ∧ conclude s x = raise s e := by
  cases x with
  | ok res => exact .inl ⟨res, rfl, rfl⟩
  | error e => exact .inr ⟨e, rfl, rfl⟩

/-- Every response returns the block to IDLE with `rsp_valid` 1 and the code on `status`. -/
theorem respond_responds (s : State) (code : BitVec 3) (res : Result) :
    (respond s code res).phase = .idle ∧ (respond s code res).bus.req = false ∧
      (respond s code res).out.rspValid = true ∧ (respond s code res).out.status = code := by
  simp

/-! ### The target's answer -/

theorem busAnswer_idle {s : State} (h : s.bus.req = false) : busAnswer s = none := by
  simp [busAnswer, h]

theorem busAnswer_store {s : State} (h : s.bus.req = true) (hm : s.target.model = .store) :
    busAnswer s = some ⟨false, if s.bus.we then Config.freeBusRdata s.draws else s.readReg s.bus.addr⟩ := by
  simp [busAnswer, h, hm]

theorem busAnswer_store_read {s : State} (h : s.bus.req = true) (hw : s.bus.we = false)
    (hm : s.target.model = .store) : busAnswer s = some ⟨false, s.readReg s.bus.addr⟩ := by
  simp [busAnswer_store h hm, hw]

theorem busAnswer_store_write {s : State} (h : s.bus.req = true) (hw : s.bus.we = true)
    (hm : s.target.model = .store) : busAnswer s = some ⟨false, Config.freeBusRdata s.draws⟩ := by
  simp [busAnswer_store h hm, hw]

theorem busAnswer_oracle {s : State} (h : s.bus.req = true) (hm : s.target.model = .oracle) :
    busAnswer s = s.target.answers.head? := by
  simp [busAnswer, h, hm]

/-- How a requested transaction stands, by the target's answer. -/
theorem transact_cases (s : State) :
    (busAnswer s = none ∧ transact s = .waiting) ∨
      (∃ a, busAnswer s = some a ∧ a.err = true ∧ transact s = .failed (settle s a)) ∨
      ∃ a, busAnswer s = some a ∧ a.err = false ∧ transact s = .done (settle s a) a.rdata := by
  unfold transact
  cases busAnswer s with
  | none => exact .inl ⟨rfl, rfl⟩
  | some a =>
    cases h : a.err with
    | true => exact .inr (.inl ⟨a, rfl, h, by simp [h]⟩)
    | false => exact .inr (.inr ⟨a, rfl, h, by simp [h]⟩)

theorem settle_target_answers_store {s : State} (a : BusAnswer) (hm : s.target.model = .store) :
    (settle s a).target.answers = s.target.answers := by
  simp [settle, hm]

theorem settle_target_answers_oracle {s : State} (a : BusAnswer) (hm : s.target.model = .oracle) :
    (settle s a).target.answers = s.target.answers.tail := by
  simp [settle, hm]

theorem regAfter_read {s : State} (a : BusAnswer) (h : s.bus.we = false) : regAfter s a = s.target.reg := by
  simp [regAfter, h]

theorem regAfter_write_ok {s : State} {a : BusAnswer} (h : s.bus.we = true) (he : a.err = false) :
    regAfter s a = memWrite s.target.reg s.bus.addr.toNat s.bus.wdata := by
  simp [regAfter, h, he]

theorem regAfter_write_failed {s : State} {a : BusAnswer} (h : s.bus.we = true) (he : a.err = true) :
    regAfter s a = memWrite s.target.reg s.bus.addr.toNat (Config.freeReg s.draws) := by
  simp [regAfter, h, he]

/-- Whatever the answer, a settled transaction leaves every register but the addressed one alone. -/
theorem settle_readReg_ne (s : State) (a : BusAnswer) {c : Addr} (h : c ≠ s.bus.addr) :
    (settle s a).readReg c = s.readReg c := by
  unfold State.readReg
  rw [settle_target_reg, regAfter]
  split
  · exact memRead_memWrite_ne _ _ h
  · rfl

/-! ### Going on with a bus operation -/

/-- What going on from a requested write can do. -/
theorem afterWrite_cases (s : State) :
    (busAnswer s = none ∧ afterWrite s = s) ∨
      (∃ a, busAnswer s = some a ∧ a.err = true ∧ afterWrite s = raise (settle s a) .busError) ∨
      ∃ a, busAnswer s = some a ∧ a.err = false ∧ afterWrite s = finish (settle s a) .nothing := by
  unfold afterWrite
  rcases transact_cases s with ⟨h, ht⟩ | ⟨a, h, he, ht⟩ | ⟨a, h, he, ht⟩
  · exact .inl ⟨h, by rw [ht]⟩
  · exact .inr (.inl ⟨a, h, he, by rw [ht]⟩)
  · exact .inr (.inr ⟨a, h, he, by rw [ht]⟩)

/-- What going on from the requested read of a get can do. -/
theorem afterRead_get_cases (f : Field) (s : State) :
    (busAnswer s = none ∧ afterRead (.get f) s = s) ∨
      (∃ a, busAnswer s = some a ∧ a.err = true ∧ afterRead (.get f) s = raise (settle s a) .busError) ∨
      ∃ a, busAnswer s = some a ∧ a.err = false ∧
        afterRead (.get f) s = conclude (settle s a) ((unpack s.config.table a.rdata f).map .byte) := by
  unfold afterRead
  rcases transact_cases s with ⟨h, ht⟩ | ⟨a, h, he, ht⟩ | ⟨a, h, he, ht⟩
  · exact .inl ⟨h, by rw [ht]⟩
  · exact .inr (.inl ⟨a, h, he, by rw [ht]⟩)
  · exact .inr (.inr ⟨a, h, he, by rw [ht]; rfl⟩)

/-- What going on from the requested read of a set can do; the write it comes to is `afterWrite`'s. -/
theorem afterRead_set_cases (f : Field) (pat : Byte) (s : State) :
    (busAnswer s = none ∧ afterRead (.set f pat) s = s) ∨
      (∃ a, busAnswer s = some a ∧ a.err = true ∧ afterRead (.set f pat) s = raise (settle s a) .busError) ∨
      ∃ a, busAnswer s = some a ∧ a.err = false ∧
        afterRead (.set f pat) s = afterWrite (requestWrite f pat { settle s a with held := a.rdata }) := by
  unfold afterRead
  rcases transact_cases s with ⟨h, ht⟩ | ⟨a, h, he, ht⟩ | ⟨a, h, he, ht⟩
  · exact .inl ⟨h, by rw [ht]⟩
  · exact .inr (.inl ⟨a, h, he, by rw [ht]⟩)
  · exact .inr (.inr ⟨a, h, he, by rw [ht]⟩)

/-- What a set can do: take the error of its immediate, or go on from its requested read. -/
theorem runSet_cases (f : Field) (imm : Byte) (s : State) :
    (∃ e, optionPattern s.config.table f imm = .error e ∧ runSet f imm s = raise s e) ∨
      ∃ pat, optionPattern s.config.table f imm = .ok pat ∧
        runSet f imm s = afterRead (.set f pat) (requestRead (.set f pat) s) := by
  unfold runSet
  cases optionPattern s.config.table f imm with
  | error e => exact .inl ⟨e, rfl, rfl⟩
  | ok pat => exact .inr ⟨pat, rfl, rfl⟩

/-- What going on with an operation in flight is, by its phase. -/
theorem resume_readPending {s : State} {op : BusOp} (h : s.phase = .readPending op) :
    resume s = afterRead op (if s.bus.req then s else requestRead op s) := by
  simp [resume, h]

theorem resume_writePending {s : State} {f : Field} {pat : Byte} (h : s.phase = .writePending f pat) :
    resume s = afterWrite (if s.bus.req then s else requestWrite f pat s) := by
  simp [resume, h]

/-! ### The bitfield functions -/

theorem optionPattern_of_some {t : FieldTable} {f : Field} {imm pat : Byte}
    (h : (fieldSpec t f).enc.lookup imm = some pat) : optionPattern t f imm = .ok pat := by
  simp [optionPattern, h]

theorem optionPattern_of_none {t : FieldTable} {f : Field} {imm : Byte}
    (h : (fieldSpec t f).enc.lookup imm = none) :
    optionPattern t f imm = .error (if f = .hourmode then .invalidHourMode else .invalidOption) := by
  unfold optionPattern
  rw [h]
  by_cases hf : f = .hourmode <;> simp [hf]

theorem unpack_of_some {t : FieldTable} {f : Field} {b o : Byte}
    (h : (fieldSpec t f).dec.lookup (b &&& (fieldSpec t f).mask) = some o) : unpack t b f = .ok o := by
  simp [unpack, h]

theorem unpack_of_none {t : FieldTable} {f : Field} {b : Byte}
    (h : (fieldSpec t f).dec.lookup (b &&& (fieldSpec t f).mask) = none) :
    unpack t b f = .error .invalidOption := by
  simp [unpack, h]

/-! ### The step -/

/-- What one step can do. -/
theorem step_cases (s : State) :
    (s.inp.rst = true ∧ step s = .next (resetBlock s)) ∨
      (s.inp.rst = false ∧ s.phase = .idle ∧ s.inp.cmdValid = false ∧ step s = .next s) ∨
      (s.inp.rst = false ∧ s.phase = .idle ∧ s.inp.cmdValid = true ∧
        ((∃ i, decode s.inp.cmd = .ok i ∧ step s = exec i s) ∨
          ∃ why, decode s.inp.cmd = .error why ∧ step s = .next (illegalCommand s))) ∨
      (s.inp.rst = false ∧ s.phase ≠ .idle ∧ step s = .next (resume s)) := by
  cases hr : s.inp.rst with
  | true => exact .inl ⟨rfl, by simp [step, hr]⟩
  | false =>
    refine .inr ?_
    cases hp : s.phase with
    | idle =>
      cases hc : s.inp.cmdValid with
      | false => exact .inl ⟨rfl, rfl, rfl, by simp [step, hr, hp, hc]⟩
      | true =>
        refine .inr (.inl ⟨rfl, rfl, rfl, ?_⟩)
        cases hd : decode s.inp.cmd with
        | ok i => exact .inl ⟨i, rfl, by simp [step, hr, hp, hc, hd]⟩
        | error why => exact .inr ⟨why, rfl, by simp [step, hr, hp, hc, hd]⟩
    | readPending op => exact .inr (.inr ⟨rfl, by simp, by simp [step, hr, hp]⟩)
    | writePending f pat => exact .inr (.inr ⟨rfl, by simp, by simp [step, hr, hp]⟩)

end Sys2Proof.Machine
end

