-- ==== Sys2Proof/Laws/PerInstr.lean ====
section
/-! SUPPORT. Statements for all instructions, made per instruction. -/
namespace Sys2Proof.Laws

/-- The word of every instruction lies in its own row of the opcode map: its match under its mask (30_encoding R63). -/
def EncodingInRow.Statement (i : Instr) : Prop :=
  (opcodeRow i).selects (encode i) = true

theorem EncodingInRow.byte2bcd : EncodingInRow.Statement .byte2bcd := rfl

theorem EncodingInRow.bcd2byte : EncodingInRow.Statement .bcd2byte := rfl

theorem EncodingInRow.enctime (mode : Byte) : EncodingInRow.Statement (.enctime mode) :=
  beq_iff_eq.mpr (assembleWord_high _ _ mode)

theorem EncodingInRow.dectime (mode : Byte) : EncodingInRow.Statement (.dectime mode) :=
  beq_iff_eq.mpr (assembleWord_high _ _ mode)

theorem EncodingInRow.packdrive (opt : Byte) : EncodingInRow.Statement (.packdrive opt) :=
  beq_iff_eq.mpr (assembleWord_high _ _ opt)

theorem EncodingInRow.packloadcap (opt : Byte) : EncodingInRow.Statement (.packloadcap opt) :=
  beq_iff_eq.mpr (assembleWord_high _ _ opt)

theorem EncodingInRow.packhourmode (mode : Byte) : EncodingInRow.Statement (.packhourmode mode) :=
  beq_iff_eq.mpr (assembleWord_high _ _ mode)

theorem EncodingInRow.pack100th (opt : Byte) : EncodingInRow.Statement (.pack100th opt) :=
  beq_iff_eq.mpr (assembleWord_high _ _ opt)

theorem EncodingInRow.packbatsw (opt : Byte) : EncodingInRow.Statement (.packbatsw opt) :=
  beq_iff_eq.mpr (assembleWord_high _ _ opt)

theorem EncodingInRow.unpackdrive : EncodingInRow.Statement .unpackdrive := rfl

theorem EncodingInRow.unpackloadcap : EncodingInRow.Statement .unpackloadcap := rfl

theorem EncodingInRow.unpackhourmode : EncodingInRow.Statement .unpackhourmode := rfl

theorem EncodingInRow.unpack100th : EncodingInRow.Statement .unpack100th := rfl

theorem EncodingInRow.unpackbatsw : EncodingInRow.Statement .unpackbatsw := rfl

theorem EncodingInRow.setdrive (opt : Byte) : EncodingInRow.Statement (.setdrive opt) :=
  beq_iff_eq.mpr (assembleWord_high _ _ opt)

theorem EncodingInRow.setloadcap (opt : Byte) : EncodingInRow.Statement (.setloadcap opt) :=
  beq_iff_eq.mpr (assembleWord_high _ _ opt)

theorem EncodingInRow.sethourmode (mode : Byte) : EncodingInRow.Statement (.sethourmode mode) :=
  beq_iff_eq.mpr (assembleWord_high _ _ mode)

theorem EncodingInRow.set100th (opt : Byte) : EncodingInRow.Statement (.set100th opt) :=
  beq_iff_eq.mpr (assembleWord_high _ _ opt)

theorem EncodingInRow.setbatsw (opt : Byte) : EncodingInRow.Statement (.setbatsw opt) :=
  beq_iff_eq.mpr (assembleWord_high _ _ opt)

theorem EncodingInRow.getdrive : EncodingInRow.Statement .getdrive := rfl

theorem EncodingInRow.getloadcap : EncodingInRow.Statement .getloadcap := rfl

theorem EncodingInRow.gethourmode : EncodingInRow.Statement .gethourmode := rfl

theorem EncodingInRow.get100th : EncodingInRow.Statement .get100th := rfl

theorem EncodingInRow.getbatsw : EncodingInRow.Statement .getbatsw := rfl

end Sys2Proof.Laws
end

