-- ==== Sys2Proof/Tests/Slice0.lean ====
section
/-! SUPPORT. Tests. The expected values are those of spec 95_test_vectors (the vector is named at each test) or worked out
by hand from the rule named; then, for every statement with hypotheses, a concrete state and operands that meet them. Ports
the spec leaves unspecified are never compared. -/
namespace Sys2Proof.Tests
open Sys2Proof Sys2Proof.Machine

/-! ### Ill-formed configuration records: each check of 42_bitfield_pack R130 refuses one -/

theorem test_default_table_is_admissible : defaultTable.admissible = true := by decide

/-- A key of `enc` stands twice. -/
theorem test_maps_must_be_functional :
    FieldSpec.mapsFunctional ⟨0x0C, [(0, 0x00), (0, 0x04)], [(0x00, 0)]⟩ = false ∧
      FieldSpec.mapsFunctional ⟨0x0C, [(0, 0x00)], [(0x00, 0), (0x00, 1)]⟩ = false := by decide

/-- (a). -/
theorem test_mask_must_not_be_zero :
    FieldSpec.maskNonzero ⟨0x00, [(0, 0x00)], [(0x00, 0)]⟩ = false ∧
      FieldSpec.admissible ⟨0x00, [(0, 0x00)], [(0x00, 0)]⟩ = false := by decide

/-- (b). -/
theorem test_patterns_must_lie_in_the_mask :
    FieldSpec.patternsInMask ⟨0x0C, [(0, 0x02)], [(0x02, 0)]⟩ = false ∧
      FieldSpec.admissible ⟨0x0C, [(0, 0x02)], [(0x02, 0)]⟩ = false := by decide

/-- (c). -/
theorem test_patterns_must_be_distinct :
    FieldSpec.patternsDistinct ⟨0x0C, [(0, 0x04), (1, 0x04)], [(0x04, 0)]⟩ = false ∧
      FieldSpec.admissible ⟨0x0C, [(0, 0x04), (1, 0x04)], [(0x04, 0)]⟩ = false := by decide

/-- (d). -/
theorem test_dec_must_invert_enc :
    FieldSpec.decInvertsEnc ⟨0x0C, [(0, 0x00), (1, 0x04)], [(0x00, 0), (0x04, 0)]⟩ = false ∧
      FieldSpec.admissible ⟨0x0C, [(0, 0x00), (1, 0x04)], [(0x00, 0)]⟩ = false := by decide

/-- A table whose LOADCAP reaches into the bits of DRIVE. -/
def overlappingTable : FieldTable :=
  { defaultTable with loadcap := ⟨0x07, [(0, 0x00), (1, 0x01)], [(0x00, 0), (0x01, 1)]⟩ }

/-- (e). -/
theorem test_masks_at_one_address_must_be_disjoint :
    overlappingTable.masksDisjoint = false ∧ overlappingTable.admissible = false := by decide

/-- A table whose BATSW has two bits. -/
def twoBitTable : FieldTable :=
  { defaultTable with batsw := ⟨0x30, [(1, 0x00), (0, 0x10)], [(0x00, 1), (0x10, 0)]⟩ }

/-- (f). -/
theorem test_single_bit_fields_must_be_single_bits :
    twoBitTable.singleBits = false ∧ twoBitTable.admissible = false := by decide

/-- A table whose HUNDREDTHS has the options 0 and 2. -/
def wrongOptionTable : FieldTable :=
  { defaultTable with hundredths := ⟨0x80, [(0, 0x00), (2, 0x80)], [(0x00, 0), (0x80, 2)]⟩ }

/-- (g). -/
theorem test_option_domains_must_be_exact :
    wrongOptionTable.optionDomains = false ∧ wrongOptionTable.admissible = false := by decide

/-- An admissible table that is not the default one: DRIVE's bits 11 name no option (42_bitfield_pack R132). -/
def gapTable : FieldTable :=
  { defaultTable with drive := ⟨0x0C, [(0, 0x00), (1, 0x04), (2, 0x08)], [(0x00, 0), (0x04, 1), (0x08, 2)]⟩ }

theorem test_gap_table_is_admissible : gapTable.admissible = true := by decide

/-! ### Decoding: words written out from 30_encoding R60 to R63 and V-ENC-1 -/

/-- `GRP` 0: 0000 0000 0000 0000 and 0000 0001 0000 0000. -/
theorem test_decode_bcd :
    decode 0b0000000000000000 = .ok .byte2bcd ∧ decode 0b0000000100000000 = .ok .bcd2byte := by decide

/-- `GRP` 1 with the immediates 24 and 12. -/
theorem test_decode_time :
    decode 0b0001000000011000 = .ok (.enctime 24) ∧ decode 0b0001000100001100 = .ok (.dectime 12) := by decide

/-- `GRP` 2. -/
theorem test_decode_pack :
    decode 0x2002 = .ok (.packdrive 2) ∧ decode 0x2101 = .ok (.packloadcap 1) ∧
      decode 0x2203 = .ok (.packhourmode 3) ∧ decode 0x2301 = .ok (.pack100th 1) ∧
      decode 0b0010010011111111 = .ok (.packbatsw 255) := by decide

/-- `GRP` 3. -/
theorem test_decode_unpack :
    decode 0x3000 = .ok .unpackdrive ∧ decode 0x3100 = .ok .unpackloadcap ∧ decode 0x3200 = .ok .unpackhourmode ∧
      decode 0x3300 = .ok .unpack100th ∧ decode 0b0011010000000000 = .ok .unpackbatsw := by decide

/-- `GRP` 4. -/
theorem test_decode_set :
    decode 0x4002 = .ok (.setdrive 2) ∧ decode 0x4101 = .ok (.setloadcap 1) ∧ decode 0x420C = .ok (.sethourmode 12) ∧
      decode 0x4301 = .ok (.set100th 1) ∧ decode 0b0100010000000001 = .ok (.setbatsw 1) := by decide

/-- `GRP` 5. -/
theorem test_decode_get :
    decode 0x5000 = .ok .getdrive ∧ decode 0x5100 = .ok .getloadcap ∧ decode 0x5200 = .ok .gethourmode ∧
      decode 0x5300 = .ok .get100th ∧ decode 0b0101010000000000 = .ok .getbatsw := by decide

/-- R66, each reason at its first and last words. -/
theorem test_decode_reserved :
    decode 0x0001 = .error .immediate ∧ decode 0x34FF = .error .immediate ∧ decode 0x5201 = .error .immediate ∧
      decode 0x0200 = .error .function ∧ decode 0x1200 = .error .function ∧ decode 0x2500 = .error .function ∧
      decode 0x3500 = .error .function ∧ decode 0x4F00 = .error .function ∧ decode 0x5500 = .error .function ∧
      decode 0x6000 = .error .group ∧ decode 0xFFFF = .error .group := by decide

theorem test_decode_table_word :
    decodeTableWord 16 0x4218 = some (.sethourmode 24) ∧ decodeTableWord 16 0x6000 = none := by decide

/-- 30_encoding R69, R70: lines of the assembler. -/
theorem test_assembler_lines :
    assembleLine "SETDRIVE high".toList = some 0x4002 ∧ assembleLine "DECTIME 24".toList = some 0x1118 ∧
      assembleLine "SETMODE12".toList = some 0x420C ∧ assembleLine "PACKLOADCAP 0x01 a=0xFB -- 6.0 pF".toList = some 0x2101 ∧
      assembleLine "SETLOADCAP 6.0".toList = some 0x4101 ∧ assembleLine "GETDRIVE 1".toList = none := by decide

/-! ### One step of each instruction -/

/-- An idle block after reset that is offered the word `w` with port `a`. -/
def idleWith (w : CmdWord) (a : Byte) : State :=
  { State.reset with inp := { State.reset.inp with cmdValid := true, cmd := w, a := a } }

/-- The step ends with this status. -/
def endsWith (s : State) (code : BitVec 3) : Bool :=
  match step s with
  | .next t => t.out.rspValid && t.out.status == code && cmdReady t
  | _ => false

/-- The step ends with `OK` and this byte on port `r`. -/
def answersByte (s : State) (r : Byte) : Bool :=
  match step s with
  | .next t => t.out.rspValid && t.out.status == 0 && t.out.r == r
  | _ => false

/-- V-BCD-1, V-BCD-2. -/
theorem test_byte2bcd : answersByte (idleWith 0x0000 99) 0x99 = true ∧ answersByte (idleWith 0x0000 7) 0x07 = true ∧
    endsWith (idleWith 0x0000 100) 3 = true := by decide

/-- V-BCD-2. -/
theorem test_bcd2byte : answersByte (idleWith 0x0100 0x45) 45 = true ∧ answersByte (idleWith 0x0100 0xFF) 165 = true ∧
    answersByte (idleWith 0x0100 0xC5) 125 = true := by decide

/-- An idle block offered `ENCTIME` with a Timestamp. -/
def encodeWith (w : CmdWord) (ts : TsIn) : State :=
  { State.reset with inp := { State.reset.inp with cmdValid := true, cmd := w, tsIn := ts } }

/-- The step ends with `OK` and this block. -/
def answersBlock (s : State) (p : BlockPort) : Bool :=
  match step s with
  | .next t => t.out.rspValid && t.out.status == 0 && t.out.blkOut == p
  | _ => false

/-- S1, V-TIME-3 rows a, h and f. -/
theorem test_enctime :
    answersBlock (encodeWith 0x1018 ⟨2024, 6, 15, 6, 9, 30, 45, 12⟩) 0x2406061509304512 = true ∧
      answersBlock (encodeWith 0x100C ⟨2026, 11, 9, 1, 12, 0, 7, 5⟩) 0x2611010932000705 = true ∧
      answersBlock (encodeWith 0x100C ⟨2099, 12, 31, 4, 23, 59, 59, 99⟩) 0x9912043131595999 = true := by decide

/-- V-TIME-6: years 1999 and 2100, and the mode that is checked first. -/
theorem test_enctime_errors :
    endsWith (encodeWith 0x1018 ⟨1999, 12, 31, 5, 23, 59, 59, 99⟩) 3 = true ∧
      endsWith (encodeWith 0x1018 ⟨2100, 1, 1, 5, 0, 0, 0, 0⟩) 3 = true ∧
      endsWith (encodeWith 0x100D ⟨1999, 1, 1, 0, 0, 0, 0, 0⟩) 2 = true := by decide

/-- An idle block offered `DECTIME` with a block. -/
def decodeWith (w : CmdWord) (p : BlockPort) : State :=
  { State.reset with inp := { State.reset.inp with cmdValid := true, cmd := w, blkIn := p } }

/-- The step ends with `OK` and this time. -/
def answersTime (s : State) (ts : TsOut) : Bool :=
  match step s with
  | .next t => t.out.rspValid && t.out.status == 0 && t.out.tsOut == ts
  | _ => false

/-- V-TIME-5 rows a, b and i. -/
theorem test_dectime :
    answersTime (decodeWith 0x110C 0x2611010932000705) ⟨2026, 11, 9, 1, 12, 0, 7, 5⟩ = true ∧
      answersTime (decodeWith 0x1118 0x2611010932000705) ⟨2026, 11, 9, 1, 32, 0, 7, 5⟩ = true ∧
      answersTime (decodeWith 0x110C 0xFFFFFFFFFFFFFFFF) ⟨2165, 165, 165, 165, 157, 165, 165, 165⟩ = true := by decide

/-- S1: the text of the end-to-end example, and S3: hundredths 5 as "50". -/
theorem test_dectime_text :
    (match step (decodeWith 0x1118 0x2406061509304512) with
      | .next t => t.out.txtOut == 0x5A32312E35343A30333A39305435312D36302D34323032
      | _ => false) = true ∧
      (match step (decodeWith 0x1118 0x2611010912000705) with
        | .next t => textChar t.out.txtOut 20 == 0x35 && textChar t.out.txtOut 21 == 0x30
        | _ => false) = true := by decide

/-- V-PACK-1. -/
theorem test_packdrive : answersByte (idleWith 0x2002 0xFF) 0xFB = true ∧ endsWith (idleWith 0x2003 0) 1 = true := by decide

theorem test_packloadcap : answersByte (idleWith 0x2101 0xFB) 0xF9 = true ∧ endsWith (idleWith 0x2103 0) 1 = true := by
  decide

theorem test_packhourmode : answersByte (idleWith 0x2218 0xF9) 0xD9 = true ∧ endsWith (idleWith 0x2201 0) 2 = true := by
  decide

theorem test_pack100th : answersByte (idleWith 0x2301 0x07) 0x87 = true ∧ endsWith (idleWith 0x2302 0) 1 = true := by
  decide

theorem test_packbatsw : answersByte (idleWith 0x2401 0x1F) 0x0F = true ∧ endsWith (idleWith 0x2402 0) 1 = true := by
  decide

/-- V-PACK-2. -/
theorem test_unpackdrive : answersByte (idleWith 0x3000 0x0C) 2 = true ∧ answersByte (idleWith 0x3000 0x04) 1 = true := by
  decide

theorem test_unpackloadcap : answersByte (idleWith 0x3100 0x2B) 2 = true ∧ answersByte (idleWith 0x3100 0xF9) 1 = true := by
  decide

theorem test_unpackhourmode :
    answersByte (idleWith 0x3200 0x2B) 12 = true ∧ answersByte (idleWith 0x3200 0xD9) 24 = true := by decide

theorem test_unpack100th : answersByte (idleWith 0x3300 0x80) 1 = true ∧ answersByte (idleWith 0x3300 0x7F) 0 = true := by
  decide

theorem test_unpackbatsw : answersByte (idleWith 0x3400 0xEF) 1 = true ∧ answersByte (idleWith 0x3400 0x10) 0 = true := by
  decide

/-- 42_bitfield_pack R132: DRIVE's bits 11 name no option under `gapTable`. -/
theorem test_unpack_names_no_option :
    endsWith { idleWith 0x3000 0x0C with config := ⟨gapTable, 0x51, 1⟩ } 1 = true := by decide

/-- An idle block on the store target whose register `a` holds `b`, offered the word `w`. -/
def storeWith (w : CmdWord) (a : Addr) (b : Byte) : State :=
  { idleWith w 0 with target := ⟨.store, [], [(a.toNat, b)]⟩ }

/-- The set reads `old` at `a`, writes `new` there, ends with `OK` and leaves `new` in the register. -/
def writesBack (w : CmdWord) (a : Addr) (old new : Byte) : Bool :=
  match step (storeWith w a old) with
  | .next t =>
    t.out.rspValid && t.out.status == 0 && t.readReg a == new && t.busLog == [.read a (some old), .write a new true]
  | _ => false

/-- The get reads `b` at `a` once, changes nothing and answers `r`. -/
def readsOnce (w : CmdWord) (a : Addr) (b r : Byte) : Bool :=
  answersByte (storeWith w a b) r &&
    match step (storeWith w a b) with
    | .next t => t.readReg a == b && t.busLog == [.read a (some b)]
    | _ => false

/-- V-RMW-1. -/
theorem test_setdrive : writesBack 0x4002 0x25 0x23 0x2B = true ∧ writesBack 0x4002 0x25 0x2B 0x2B = true := by decide

theorem test_setloadcap : writesBack 0x4101 0x25 0x2B 0x29 = true := by decide

theorem test_sethourmode : writesBack 0x420C 0x25 0x09 0x29 = true ∧ writesBack 0x4218 0x25 0x29 0x09 = true := by decide

theorem test_set100th : writesBack 0x4301 0x28 0x07 0x87 = true ∧ writesBack 0x4300 0x28 0x87 0x07 = true := by decide

theorem test_setbatsw : writesBack 0x4401 0x26 0x1F 0x0F = true ∧ writesBack 0x4400 0x26 0x0F 0x1F = true := by decide

theorem test_getdrive : readsOnce 0x5000 0x25 0x2B 2 = true := by decide

theorem test_getloadcap : readsOnce 0x5100 0x25 0x29 1 = true := by decide

theorem test_gethourmode : readsOnce 0x5200 0x25 0x29 12 = true ∧ readsOnce 0x5200 0x25 0x09 24 = true := by decide

theorem test_get100th : readsOnce 0x5300 0x28 0x87 1 = true := by decide

theorem test_getbatsw : readsOnce 0x5400 0x26 0x0F 1 = true ∧ readsOnce 0x5400 0x26 0x1F 0 = true := by decide

/-- An idle block on the oracle target with these answers to come, offered the word `w`. -/
def oracleOn (w : CmdWord) (as : List BusAnswer) : State :=
  { idleWith w 0 with target := ⟨.oracle, as, []⟩ }

/-- The step ends with this status after this bus traffic. -/
def endsAfter (s : State) (code : BitVec 3) (log : List BusTxn) : Bool :=
  endsWith s code &&
    match step s with
    | .next t => t.busLog == log
    | _ => false

/-- V-RMW-2: no bus traffic, a failed read, a failed write. -/
theorem test_set_errors :
    endsAfter (oracleOn 0x4009 []) 1 [] = true ∧ endsAfter (oracleOn 0x420D []) 2 [] = true ∧
      endsAfter (oracleOn 0x4002 [⟨true, 0⟩]) 5 [.read 0x25 none] = true ∧
      endsAfter (oracleOn 0x4002 [⟨false, 0x23⟩, ⟨true, 0⟩]) 5 [.read 0x25 (some 0x23), .write 0x25 0x2B false] = true := by
  decide

/-- V-RMW-2 and V-RMW-3: a failed read of a get, and the byte written for the byte 0xA5 read. -/
theorem test_oracle_answers :
    endsAfter (oracleOn 0x5200 [⟨true, 0x29⟩]) 5 [.read 0x25 none] = true ∧
      endsAfter (oracleOn 0x4002 [⟨false, 0xA5⟩, ⟨false, 0⟩]) 0 [.read 0x25 (some 0xA5), .write 0x25 0xA9 true] = true := by
  decide

/-- V-RMW-2: the target never answers a `GETDRIVE`. -/
theorem test_unanswered_get_is_pending :
    (match step (oracleOn 0x5000 []) with
      | .next t => !cmdReady t && !t.out.rspValid && t.bus.req && !t.bus.we && t.bus.addr == 0x25
      | _ => false) = true := by decide

/-- P4 command 2: a reserved word. -/
theorem test_reserved_word_ends : endsAfter (idleWith 0x6000 0) 4 [] = true := by decide

/-- The host's way to offer a command. -/
theorem test_fetch_word : answersByte ((idleWith 0xFFFF 45).withFetchWord 16 0x0000) 0x45 = true := by decide

/-! ### Witnesses: the hypotheses of every statement can be met -/

/-- A block in which the write of `SETDRIVE 2` is on the bus, after a read of 0x23. -/
def writeOnBus : State :=
  { State.reset with
    phase := .writePending .drive 0x08
    held := 0x23
    bus := ⟨true, true, 0x25, 0x2B⟩
    target := ⟨.oracle, [], []⟩ }

/-- A block in which the read of `GETDRIVE` is on the bus. -/
def readOnBus : State :=
  { State.reset with phase := .readPending (.get .drive), bus := ⟨true, false, 0x25, 0⟩, target := ⟨.oracle, [], []⟩ }

theorem test_witness_HeldInResetWhileRstIsHigh :
    (driveRst true readOnBus).inp.rst = true ∧ writeInFlight (driveRst true readOnBus) = false ∧
      (driveRst true writeOnBus).inp.rst = true ∧ writeInFlight (driveRst true writeOnBus) = true := by decide

theorem inv_idle (w : CmdWord) (a : Byte) : Inv (idleWith w a) :=
  ⟨rfl, rfl, fun h => (by cases h), fun t h => (by cases h)⟩

theorem inv_readOnBus : Inv readOnBus :=
  ⟨rfl, ⟨rfl, rfl, rfl, rfl⟩, fun h => (by cases h), fun t h => (by cases h)⟩

theorem inv_writeOnBus : Inv writeOnBus :=
  ⟨rfl, ⟨rfl, fun _ => ⟨rfl, rfl, by decide⟩⟩, fun h => (by cases h), fun t h => (by cases h)⟩

/-- An idle state, a pending read and a pending write, each with a next state. -/
theorem test_witness_EveryStepKeepsTheInvariant :
    (∃ t, Inv (idleWith 0x4002 0) ∧ step (idleWith 0x4002 0) = .next t) ∧
      (∃ t, Inv readOnBus ∧ step readOnBus = .next t) ∧ ∃ t, Inv writeOnBus ∧ step writeOnBus = .next t :=
  ⟨⟨_, inv_idle _ _, rfl⟩, ⟨_, inv_readOnBus, rfl⟩, ⟨_, inv_writeOnBus, rfl⟩⟩

theorem test_witness_BusTrafficStaysAtTheThreeRegisters :
    (∃ t, exec (.setbatsw 1) State.reset = .next t) ∧ ∃ t, Inv writeOnBus ∧ step writeOnBus = .next t :=
  ⟨⟨_, rfl⟩, ⟨_, inv_writeOnBus, rfl⟩⟩

theorem test_witness_NoStepChangesTheSurroundings : ∃ t, step (idleWith 0x4002 0) = .next t := ⟨_, rfl⟩

theorem test_witness_StepRunsTheDecodedInstruction :
    (idleWith 0x5200 0).inp.rst = false ∧ (idleWith 0x5200 0).phase = .idle ∧ (idleWith 0x5200 0).inp.cmdValid = true ∧
      decode (idleWith 0x5200 0).inp.cmd = .ok .gethourmode := by decide

theorem test_witness_IdleBlockWaitsForACommand :
    State.reset.inp.rst = false ∧ State.reset.phase = .idle ∧ State.reset.inp.cmdValid = false := by decide

/-- Two blocks that agree on ports, configuration and target, one of them after an earlier response. -/
theorem test_witness_OperationsKeepNoMemoryOfEarlierOnes :
    let s := storeWith 0x5000 0x25 0x2B
    let s' := { s with out := { s.out with rspValid := true, status := 3, r := 0x55 }, busLog := [.read 0x26 none] }
    s.inp = s'.inp ∧ s.config = s'.config ∧ s.target = s'.target ∧ s.draws = s'.draws ∧
      (∃ t, exec .getdrive s = .next t) ∧ ∃ t', exec .getdrive s' = .next t' :=
  ⟨rfl, rfl, rfl, rfl, ⟨_, rfl⟩, ⟨_, rfl⟩⟩

theorem test_witness_DecodeOfEncodeIsTheInstruction : (Instr.setbatsw 255).wellFormed = true := by decide

theorem test_witness_EncodeOfDecodeIsTheWord : decode 0x44FF = .ok (.setbatsw 255) := by decide

theorem test_witness_OpcodeMapSelectsByMatchAndMask :
    decode 0x44FF = .ok (.setbatsw 255) ∧ (opcodeRow (.setbatsw 0)).selects 0x44FF = true ∧
      (opcodeRow (.setbatsw 255)).selects 0x44FF = true ∧ ∀ i : Instr, (opcodeRow i).selects 0x6000 = false :=
  ⟨by decide, by decide, by decide, fun i => by cases i <;> simp [opcodeRow, OpcodeRow.selects]⟩

theorem test_witness_ReservedWordsEndWithIllegalCommand :
    (idleWith 0x0001 7).inp.rst = false ∧ (idleWith 0x0001 7).phase = .idle ∧ (idleWith 0x0001 7).inp.cmdValid = true ∧
      decode (idleWith 0x0001 7).inp.cmd = .error .immediate ∧ decode (idleWith 0x2500 7).inp.cmd = .error .function ∧
      decode (idleWith 0x6000 7).inp.cmd = .error .group := by decide

/-- A reserved word and a word that is not, each with its step. -/
theorem test_witness_IllegalCommandExactlyForReservedWords :
    (idleWith 0x6000 0).inp.rst = false ∧ (idleWith 0x6000 0).phase = .idle ∧ (idleWith 0x6000 0).inp.cmdValid = true ∧
      (∃ t, step (idleWith 0x6000 0) = .next t) ∧ ∃ t, step (idleWith 0x0100 0) = .next t :=
  ⟨rfl, rfl, rfl, ⟨_, rfl⟩, ⟨_, rfl⟩⟩

/-- `exec` answers a next state with a valid response of this status. -/
def execEnds (i : Instr) (s : State) (code : BitVec 3) : Bool :=
  match exec i s with
  | .next t => t.out.rspValid && t.out.status == code
  | _ => false

/-- Every code is reached under an admissible table: 1 by `UNPACKDRIVE` too, where the table leaves a gap. -/
theorem test_witness_ErrorCodesOnlyFromTheirOperations :
    defaultTable.admissible = true ∧ gapTable.admissible = true ∧ execEnds (.packdrive 3) State.reset 1 = true ∧
      execEnds .unpackdrive { idleWith 0 0x0C with config := ⟨gapTable, 0x51, 1⟩ } 1 = true ∧
      execEnds (.dectime 0) State.reset 2 = true ∧ execEnds .byte2bcd (idleWith 0 100) 3 = true ∧
      execEnds .getdrive (oracleOn 0x5000 [⟨true, 0⟩]) 5 = true := by decide

theorem test_witness_PureOperationsTouchNothingOutside :
    usesBus (.enctime 12) = false ∧ usesBus .unpackbatsw = false ∧ usesBus (.setdrive 0) = true := by decide

theorem test_witness_BcdToByteIsTheFormula : validBcd 0x99 = true ∧ validBcd 0x9A = false := by decide

theorem test_witness_BcdCodecLaws :
    (99 : Nat) < 100 ∧ validBcd 0x99 = true ∧ byteToBcd 99 = .ok 0x99 ∧ byteToBcd 0 = .ok 0x00 := by decide

theorem test_witness_HourLaw : (23 : Nat) < 24 ∧ encHour 23 .h12 = .ok 0x31 ∧ encHour 0 .h12 = .ok 0x12 := by decide

/-- The first and the last valid Timestamp. -/
theorem test_witness_EnctimeEncodesEveryField :
    hourModeOf 12 = .ok .h12 ∧ hourModeOf 24 = .ok .h24 ∧
      validTimestamp (encodeWith 0x100C ⟨2000, 1, 1, 0, 0, 0, 0, 0⟩).inp.tsIn = true ∧
      validTimestamp (encodeWith 0x100C ⟨2099, 12, 31, 6, 23, 59, 59, 99⟩).inp.tsIn = true := by decide

theorem test_witness_DectimeDecodesEveryBlock :
    hourModeOf 12 = .ok .h12 ∧ hourModeOf 24 = .ok .h24 ∧ (render ⟨2100, 99, 99, 165, 99, 99, 99, 99⟩).isSome = true := by
  decide

/-- The hundredths at both sides of 10, and the first field that is not renderable. -/
theorem test_witness_RenderedTextLayout :
    renderable ⟨2165, 99, 0, 165, 0, 0, 0, 9⟩ = true ∧ renderable ⟨2000, 0, 0, 0, 0, 0, 0, 10⟩ = true ∧
      renderable ⟨2000, 0, 0, 0, 0, 0, 0, 100⟩ = false := by decide

/-- A valid Timestamp whose hundredth is below 10; a block with the port value it encodes to; and the same Timestamp
again. -/
theorem test_witness_TimeRoundTrip :
    let s := encodeWith 0x100C ⟨2026, 11, 9, 1, 12, 0, 7, 5⟩
    validTimestamp s.inp.tsIn = true ∧ s.inp.tsIn.hundredth.toNat < 10 ∧ answersBlock s 0x2611010932000705 = true ∧
      (decodeWith 0x110C 0x2611010932000705).inp.blkIn = 0x2611010932000705 ∧
      answersTime (decodeWith 0x110C 0x2611010932000705) ⟨2026, 11, 9, 1, 12, 0, 7, 5⟩ = true := by decide

theorem test_witness_PackReplacesTheFieldBitsOnly :
    defaultTable.admissible = true ∧ (fieldSpec defaultTable .drive).enc.lookup 2 = some 0x08 := by decide

/-- Two fields at one address, with two options of the first. -/
theorem test_witness_PackLaws :
    defaultTable.admissible = true ∧ (fieldSpec defaultTable .drive).enc.lookup 2 = some 0x08 ∧
      (fieldSpec defaultTable .drive).enc.lookup 0 = some 0x00 ∧ fieldAddr .drive = fieldAddr .loadcap ∧
      Field.drive ≠ Field.loadcap ∧ (fieldSpec defaultTable .loadcap).enc.lookup 1 = some 0x01 := by decide

/-- The last option and the first byte that is none. -/
theorem test_witness_PackOperations :
    (fieldSpec State.reset.config.table .drive).enc.lookup 2 = some 0x08 ∧
      (fieldSpec State.reset.config.table .drive).enc.lookup 3 = none ∧
      (fieldSpec State.reset.config.table .hourmode).enc.lookup 24 = some 0x00 ∧
      (fieldSpec State.reset.config.table .hourmode).enc.lookup 25 = none := by decide

theorem test_witness_UnpackOperations :
    (fieldSpec defaultTable .drive).dec.lookup (0xFF &&& (fieldSpec defaultTable .drive).mask) = some 2 ∧
      (fieldSpec gapTable .drive).dec.lookup (0xFF &&& (fieldSpec gapTable .drive).mask) = none := by decide

theorem test_witness_OneBitFieldsAlwaysNameAnOption : gapTable.admissible = true := by decide

/-- The immediates at the edges: 11, 12, 24, 25 for HOURMODE, 1 and 2 for HUNDREDTHS, 2 and 3 for DRIVE. -/
theorem test_witness_ImmediatesThatNameNoOption :
    defaultTable.admissible = true ∧ optionPattern defaultTable .hourmode 11 = .error .invalidHourMode ∧
      optionPattern defaultTable .hourmode 12 = .ok 0x20 ∧ optionPattern defaultTable .hourmode 24 = .ok 0x00 ∧
      optionPattern defaultTable .hundredths 1 = .ok 0x80 ∧
      optionPattern defaultTable .hundredths 2 = .error .invalidOption ∧ optionPattern defaultTable .drive 2 = .ok 0x08 ∧
      optionPattern defaultTable .drive 3 = .error .invalidOption := by decide

theorem test_witness_SetOnTheStoreTarget :
    storeTarget (storeWith 0x4002 0x25 0x23) ∧ Memory.wf (storeWith 0x4002 0x25 0x23).target.reg = true ∧
      (fieldSpec (storeWith 0x4002 0x25 0x23).config.table .drive).enc.lookup 2 = some 0x08 :=
  ⟨rfl, by decide, by decide⟩

theorem test_witness_SetOnTheOracleTarget :
    oracleWith (⟨false, 0xA5⟩ :: ⟨false, 0⟩ :: []) (oracleOn 0x4002 [⟨false, 0xA5⟩, ⟨false, 0⟩]) ∧
      (fieldSpec (oracleOn 0x4002 []).config.table .drive).enc.lookup 2 = some 0x08 :=
  ⟨⟨rfl, rfl⟩, by decide⟩

theorem test_witness_SetWithABadOptionNeverTouchesTheBus :
    (fieldSpec (oracleOn 0x4003 []).config.table .drive).enc.lookup 3 = none ∧
      (fieldSpec (oracleOn 0x420D []).config.table .hourmode).enc.lookup 13 = none := by decide

theorem test_witness_FailedReadEndsSetWithoutWrite :
    oracleWith (⟨true, 0⟩ :: []) (oracleOn 0x4002 [⟨true, 0⟩]) ∧
      (fieldSpec (oracleOn 0x4002 []).config.table .drive).enc.lookup 2 = some 0x08 :=
  ⟨⟨rfl, rfl⟩, by decide⟩

theorem test_witness_FailedWriteEndsSetWithBusError :
    oracleWith (⟨false, 0x23⟩ :: ⟨true, 0⟩ :: []) (oracleOn 0x4002 [⟨false, 0x23⟩, ⟨true, 0⟩]) ∧
      (fieldSpec (oracleOn 0x4002 []).config.table .drive).enc.lookup 2 = some 0x08 :=
  ⟨⟨rfl, rfl⟩, by decide⟩

/-- A byte that names an option, and one that names none under `gapTable`. -/
theorem test_witness_GetOnTheStoreTarget :
    storeTarget (storeWith 0x5000 0x25 0x0C) ∧ unpack defaultTable 0x0C .drive = .ok 2 ∧
      unpack gapTable 0x0C .drive = .error .invalidOption :=
  ⟨rfl, by decide, by decide⟩

/-- An answer that fails and one that does not. -/
theorem test_witness_GetOnTheOracleTarget :
    oracleWith (⟨true, 0x0C⟩ :: []) (oracleOn 0x5000 [⟨true, 0x0C⟩]) ∧
      oracleWith (⟨false, 0x0C⟩ :: []) (oracleOn 0x5000 [⟨false, 0x0C⟩]) ∧ unpack defaultTable 0x0C .drive = .ok 2 ∧
      unpack gapTable 0x0C .drive = .error .invalidOption :=
  ⟨⟨rfl, rfl⟩, ⟨rfl, rfl⟩, by decide, by decide⟩

theorem test_witness_SetThenGetOnTheStoreTarget :
    storeTarget (storeWith 0x4002 0x25 0xB2) ∧ Memory.wf (storeWith 0x4002 0x25 0xB2).target.reg = true ∧
      (storeWith 0x4002 0x25 0xB2).config.table.admissible = true ∧
      (fieldSpec (storeWith 0x4002 0x25 0xB2).config.table .drive).enc.lookup 2 = some 0x08 ∧
      fieldAddr .loadcap = fieldAddr .drive ∧ Field.loadcap ≠ Field.drive :=
  ⟨rfl, by decide, by decide, by decide, by decide, by decide⟩

/-- A target with no answer, and a pending read and a pending write on it. -/
theorem test_witness_UnansweredTransactionHangs :
    oracleWith [] (oracleOn 0x4002 []) ∧
      (fieldSpec (oracleOn 0x4002 []).config.table .drive).enc.lookup 2 = some 0x08 ∧
      (readOnBus.inp.rst = false ∧ readOnBus.phase ≠ .idle ∧ readOnBus.bus.req = true ∧ oracleWith [] readOnBus) ∧
      writeOnBus.inp.rst = false ∧ writeOnBus.phase ≠ .idle ∧ writeOnBus.bus.req = true ∧ oracleWith [] writeOnBus :=
  ⟨⟨rfl, rfl⟩, by decide, ⟨rfl, by decide, rfl, ⟨rfl, rfl⟩⟩, rfl, by decide, rfl, ⟨rfl, rfl⟩⟩

theorem test_witness_LateAnswersEndTheSame :
    (oracleOn 0x4002 []).inp.rst = false ∧ oracleWith [] (oracleOn 0x4002 []) ∧
      (fieldSpec (oracleOn 0x4002 []).config.table .drive).enc.lookup 2 = some 0x08 ∧
      (∃ t, exec .getdrive (oracleOn 0x5000 []) = .next t) ∧ ∃ t, exec (.setdrive 2) (oracleOn 0x4002 []) = .next t :=
  ⟨rfl, ⟨rfl, rfl⟩, by decide, ⟨_, rfl⟩, ⟨_, rfl⟩⟩

/-- A pending write whose requester offers another command meanwhile. -/
theorem test_witness_OperandsAreSampledAtAcceptance :
    writeOnBus.phase ≠ .idle ∧ writeOnBus.inp.rst = false ∧ (idleWith 0x6000 0xFF).inp.rst = false ∧
      ∃ t, step writeOnBus = .next t :=
  ⟨by decide, rfl, rfl, ⟨_, rfl⟩⟩

theorem test_witness_LostUpdate :
    (oracleOn 0x4002 [⟨false, 0x23⟩]).inp.rst = false ∧ oracleWith [⟨false, 0x23⟩] (oracleOn 0x4002 [⟨false, 0x23⟩]) ∧
      Memory.wf (oracleOn 0x4002 [⟨false, 0x23⟩]).target.reg = true ∧
      (fieldSpec (oracleOn 0x4002 []).config.table .drive).enc.lookup 2 = some 0x08 :=
  ⟨rfl, ⟨rfl, rfl⟩, by decide, by decide⟩

/-- A field in the register that is written, and one in another register. -/
theorem test_witness_SetPreservesEveryOtherNamedField :
    storeTarget (storeWith 0x4002 0x25 0xB2) ∧ Memory.wf (storeWith 0x4002 0x25 0xB2).target.reg = true ∧
      (storeWith 0x4002 0x25 0xB2).config.table = defaultTable ∧
      (fieldSpec defaultTable .drive).enc.lookup 2 = some 0x08 ∧ ChipField.invert ≠ chipFieldOf .drive ∧
      ChipField.clockStopped ≠ chipFieldOf .drive :=
  ⟨rfl, by decide, rfl, by decide, by decide, by decide⟩

theorem test_witness_HourModeReadFeedsTheTimeCodec :
    (storeWith 0x5200 0x25 0x29).config.table.admissible = true ∧
      execEnds .gethourmode (storeWith 0x5200 0x25 0x29) 0 = true := by decide

theorem test_witness_SetTimeSequenceOrder : Memory.wf State.reset.target.reg = true := by decide

end Sys2Proof.Tests
end

/-! ## Proofs: the state and its steps (spec 10_state)

First the facts the proofs share: the step by its phases, every instruction as a pure operation, a set or a get, and what
going on with a bus operation is by the target's answer. Then three properties of the shared operations, each proved along
`respond`, `settle`, the two requests, `afterWrite`, `afterRead` and `resume`: what never changes, the invariant, and what
is never read. -/
namespace Sys2Proof.Machine

/-! ### The step, by its phases -/

theorem step_idle_noOffer {s : State} (hr : s.inp.rst = false) (hp : s.phase = .idle) (hc : s.inp.cmdValid = false) :
    step s = .next s := by
  simp [step, hr, hp, hc]

theorem step_idle_offer {s : State} {i : Instr} (hr : s.inp.rst = false) (hp : s.phase = .idle)
    (hc : s.inp.cmdValid = true) (hd : decode s.inp.cmd = .ok i) : step s = exec i s := by
  simp [step, hr, hp, hc, hd]

theorem step_inFlight {s : State} (hr : s.inp.rst = false) (hp : s.phase ≠ .idle) : step s = .next (resume s) := by
  cases h : s.phase with
  | idle => exact absurd h hp
  | readPending op => simp [step, hr, h]
  | writePending f pat => simp [step, hr, h]

/-! ### The instructions, by family -/

@[simp] theorem exec_packInstr (imm : Byte) (f : Field) (s : State) :
    exec (packInstr imm f) s = .next (runPack f imm s) := by
  cases f <;> rfl

@[simp] theorem exec_unpackInstr (f : Field) (s : State) : exec (unpackInstr f) s = .next (runUnpack f s) := by
  cases f <;> rfl

@[simp] theorem exec_setInstr (imm : Byte) (f : Field) (s : State) :
    exec (setInstr imm f) s = .next (runSet f imm s) := by
  cases f <;> rfl

@[simp] theorem exec_getInstr (f : Field) (s : State) : exec (getInstr f) s = .next (runGet f s) := by
  cases f <;> rfl

theorem usesBus_setInstr (imm : Byte) (f : Field) : usesBus (setInstr imm f) = true := by
  cases f <;> simp [usesBus, setInstr, encode]

theorem usesBus_getInstr (f : Field) : usesBus (getInstr f) = true := by
  cases f <;> rfl

/-- The instruction ends in the step that runs it, with what its pseudocode makes of the requester's ports and the
configuration record alone (10_state R10, R15). -/
def EndsAtOnce (i : Instr) : Prop :=
  ∃ outcome : Inputs → ConfigRecord → Except OpError Result,
    ∀ s : State, exec i s = .next (conclude s (outcome s.inp s.config))

theorem endsAtOnce_packInstr (imm : Byte) (f : Field) : EndsAtOnce (packInstr imm f) :=
  ⟨fun p c => (optionPattern c.table f imm).map fun pat => .byte (pack c.table p.a f pat), exec_packInstr imm f⟩

theorem endsAtOnce_unpackInstr (f : Field) : EndsAtOnce (unpackInstr f) :=
  ⟨fun p c => (unpack c.table p.a f).map .byte, exec_unpackInstr f⟩

/-- Every instruction is a pure operation, a `SET*` or a `GET*` (30_encoding R61). -/
theorem instr_cases (i : Instr) : EndsAtOnce i ∨ (∃ imm f, i = setInstr imm f) ∨ ∃ f, i = getInstr f := by
  cases i with
  | byte2bcd => exact .inl ⟨fun p _ => (byteToBcd p.a.toNat).map .byte, fun _ => rfl⟩
  | bcd2byte => exact .inl ⟨fun p _ => .ok (.byte (BitVec.ofNat 8 (bcdToByte p.a))), fun _ => rfl⟩
  | enctime mode => exact .inl ⟨fun p _ => (encodeTime mode p.tsIn).map .block, fun _ => rfl⟩
  | dectime mode =>
    exact .inl ⟨fun p _ => (decodeTime mode p.blkIn).map fun t => .time t (render t), fun _ => rfl⟩
  | packdrive opt => exact .inl (endsAtOnce_packInstr opt .drive)
  | packloadcap opt => exact .inl (endsAtOnce_packInstr opt .loadcap)
  | packhourmode mode => exact .inl (endsAtOnce_packInstr mode .hourmode)
  | pack100th opt => exact .inl (endsAtOnce_packInstr opt .hundredths)
  | packbatsw opt => exact .inl (endsAtOnce_packInstr opt .batsw)
  | unpackdrive => exact .inl (endsAtOnce_unpackInstr .drive)
  | unpackloadcap => exact .inl (endsAtOnce_unpackInstr .loadcap)
  | unpackhourmode => exact .inl (endsAtOnce_unpackInstr .hourmode)
  | unpack100th => exact .inl (endsAtOnce_unpackInstr .hundredths)
  | unpackbatsw => exact .inl (endsAtOnce_unpackInstr .batsw)
  | setdrive opt => exact .inr (.inl ⟨opt, .drive, rfl⟩)
  | setloadcap opt => exact .inr (.inl ⟨opt, .loadcap, rfl⟩)
  | sethourmode mode => exact .inr (.inl ⟨mode, .hourmode, rfl⟩)
  | set100th opt => exact .inr (.inl ⟨opt, .hundredths, rfl⟩)
  | setbatsw opt => exact .inr (.inl ⟨opt, .batsw, rfl⟩)
  | getdrive => exact .inr (.inr ⟨.drive, rfl⟩)
  | getloadcap => exact .inr (.inr ⟨.loadcap, rfl⟩)
  | gethourmode => exact .inr (.inr ⟨.hourmode, rfl⟩)
  | get100th => exact .inr (.inr ⟨.hundredths, rfl⟩)
  | getbatsw => exact .inr (.inr ⟨.batsw, rfl⟩)

/-- The instructions of groups 0 to 3 end at once: a `SET*` or a `GET*` lies in group 4 or 5 (30_encoding R61). -/
theorem endsAtOnce_of_not_usesBus {i : Instr} (h : usesBus i = false) : EndsAtOnce i := by
  rcases instr_cases i with hi | ⟨imm, f, rfl⟩ | ⟨f, rfl⟩
  · exact hi
  · simp [usesBus_setInstr] at h
  · simp [usesBus_getInstr] at h

/-- Decoding the word of an instruction gives it back (30_encoding R63). -/
theorem decode_encode (i : Instr) : decode (encode i) = .ok i := by
  cases i <;> exact decode_assembleWord _ _ _

/-! ### Responses and transactions -/

theorem errorCode_toNat_le (e : OpError) : (errorCode e).toNat ≤ 5 := by
  cases e <;> decide

/-- Every conclusion is a response with one of the six status codes (60_exceptions R190). -/
theorem conclude_eq_respond (s : State) (x : Except OpError Result) :
    ∃ code res, code.toNat ≤ 5 ∧ conclude s x = respond s code res := by
  rcases conclude_cases s x with ⟨res, -, h⟩ | ⟨e, -, h⟩
  · exact ⟨statusOk, res, by decide, h⟩
  · exact ⟨errorCode e, .nothing, errorCode_toNat_le e, h⟩

theorem requestRead_bus_addr (op : BusOp) (s : State) :
    (requestRead op s).bus.addr = fieldAddr (busOpField op) := by
  cases op <;> rfl

/-- The address of every field is one of the three registers (20_memory R31, R32). -/
theorem blockMayTouch_fieldAddr (f : Field) : blockMayTouch (fieldAddr f) = true := by
  cases f <;> rfl

theorem txnAddr_observedTxn (b : BusPort) (a : BusAnswer) : txnAddr (observedTxn b a) = b.addr := by
  unfold observedTxn
  split <;> rfl

section Answers
variable {s : State} {a : BusAnswer}

theorem afterWrite_waiting (h : busAnswer s = none) : afterWrite s = s := by
  simp [afterWrite, transact, h]

theorem afterWrite_failed (h : busAnswer s = some a) (he : a.err = true) :
    afterWrite s = raise (settle s a) .busError := by
  simp [afterWrite, transact, h, he]

theorem afterWrite_done (h : busAnswer s = some a) (he : a.err = false) :
    afterWrite s = finish (settle s a) .nothing := by
  simp [afterWrite, transact, h, he]

theorem afterRead_waiting (op : BusOp) (h : busAnswer s = none) : afterRead op s = s := by
  simp [afterRead, transact, h]

theorem afterRead_failed (op : BusOp) (h : busAnswer s = some a) (he : a.err = true) :
    afterRead op s = raise (settle s a) .busError := by
  simp [afterRead, transact, h, he]

theorem afterRead_get_done (f : Field) (h : busAnswer s = some a) (he : a.err = false) :
    afterRead (.get f) s = conclude (settle s a) ((unpack s.config.table a.rdata f).map .byte) := by
  simp [afterRead, transact, h, he]

theorem afterRead_set_done (f : Field) (pat : Byte) (h : busAnswer s = some a) (he : a.err = false) :
    afterRead (.set f pat) s = afterWrite (requestWrite f pat { settle s a with held := a.rdata }) := by
  simp [afterRead, transact, h, he]

end Answers

/-! ### What never changes: the surroundings -/

theorem sameSurroundings_refl (s : State) : sameSurroundings s s :=
  ⟨rfl, rfl, rfl⟩

theorem sameSurroundings_trans {s t u : State} (hst : sameSurroundings s t) (htu : sameSurroundings t u) :
    sameSurroundings s u := by
  obtain ⟨hi, hc, hm⟩ := hst
  obtain ⟨hi', hc', hm'⟩ := htu
  exact ⟨hi'.trans hi, hc'.trans hc, hm'.trans hm⟩

theorem sameSurroundings_conclude (s : State) (x : Except OpError Result) : sameSurroundings s (conclude s x) := by
  obtain ⟨code, res, -, h⟩ := conclude_eq_respond s x
  rw [h]
  exact ⟨rfl, rfl, rfl⟩

theorem sameSurroundings_afterWrite (s : State) : sameSurroundings s (afterWrite s) := by
  rcases afterWrite_cases s with ⟨-, h⟩ | ⟨a, -, -, h⟩ | ⟨a, -, -, h⟩ <;> rw [h] <;> exact ⟨rfl, rfl, rfl⟩

theorem sameSurroundings_afterRead (op : BusOp) (s : State) : sameSurroundings s (afterRead op s) := by
  cases op with
  | get f =>
    rcases afterRead_get_cases f s with ⟨-, h⟩ | ⟨a, -, -, h⟩ | ⟨a, -, -, h⟩ <;> rw [h]
    · exact sameSurroundings_refl s
    · exact ⟨rfl, rfl, rfl⟩
    · exact sameSurroundings_trans ⟨rfl, rfl, rfl⟩ (sameSurroundings_conclude (settle s a) _)
  | set f pat =>
    rcases afterRead_set_cases f pat s with ⟨-, h⟩ | ⟨a, -, -, h⟩ | ⟨a, -, -, h⟩ <;> rw [h]
    · exact sameSurroundings_refl s
    · exact ⟨rfl, rfl, rfl⟩
    · exact sameSurroundings_trans ⟨rfl, rfl, rfl⟩ (sameSurroundings_afterWrite _)

theorem sameSurroundings_requestRead_afterRead (op : BusOp) (s : State) :
    sameSurroundings s (afterRead op (requestRead op s)) :=
  sameSurroundings_trans ⟨rfl, rfl, rfl⟩ (sameSurroundings_afterRead op _)

theorem sameSurroundings_resume (s : State) : sameSurroundings s (resume s) := by
  cases hp : s.phase with
  | idle => simpa [resume, hp] using sameSurroundings_refl s
  | readPending op =>
    rw [resume_readPending hp]
    split
    · exact sameSurroundings_afterRead op s
    · exact sameSurroundings_requestRead_afterRead op s
  | writePending f pat =>
    rw [resume_writePending hp]
    split
    · exact sameSurroundings_afterWrite s
    · exact sameSurroundings_trans ⟨rfl, rfl, rfl⟩ (sameSurroundings_afterWrite _)

theorem sameSurroundings_runSet (f : Field) (imm : Byte) (s : State) : sameSurroundings s (runSet f imm s) := by
  rcases runSet_cases f imm s with ⟨e, -, h⟩ | ⟨pat, -, h⟩ <;> rw [h]
  · exact ⟨rfl, rfl, rfl⟩
  · exact sameSurroundings_requestRead_afterRead _ s

theorem sameSurroundings_exec {i : Instr} {s t : State} (h : exec i s = .next t) : sameSurroundings s t := by
  rcases instr_cases i with ⟨outcome, hx⟩ | ⟨imm, f, rfl⟩ | ⟨f, rfl⟩
  · obtain rfl := Host.Outcome.next.inj ((hx s).symm.trans h)
    exact sameSurroundings_conclude s _
  · obtain rfl := Host.Outcome.next.inj ((exec_setInstr imm f s).symm.trans h)
    exact sameSurroundings_runSet f imm s
  · obtain rfl := Host.Outcome.next.inj ((exec_getInstr f s).symm.trans h)
    exact sameSurroundings_requestRead_afterRead _ s

/-! ### The invariant -/

/-- The part of the invariant that does not speak of the ports: the canonical register space and the registers seen on
the bus. Every operation may start from it, since a request or a response sets the ports anew. -/
structure ChipSide (s : State) : Prop where
  memory : Memory.wf s.target.reg = true
  bus    : ∀ t ∈ s.busLog, blockMayTouch (txnAddr t) = true

theorem Inv.chipSide {s : State} (h : Inv s) : ChipSide s :=
  ⟨h.memory, h.bus⟩

/-- A transaction at one of the three registers keeps both, whatever the answer. -/
theorem ChipSide.settle {s : State} (h : ChipSide s) (a : BusAnswer) (ha : blockMayTouch s.bus.addr = true) :
    ChipSide (settle s a) where
  memory := regAfter_keeps_wf s a h.memory
  bus := by
    intro t ht
    rw [settle_busLog, List.mem_append, List.mem_singleton] at ht
    rcases ht with ht | rfl
    · exact h.bus t ht
    · rwa [txnAddr_observedTxn]

theorem ChipSide.inv_respond {s : State} (h : ChipSide s) {code : BitVec 3} (hc : code.toNat ≤ 5) (res : Result) :
    Inv (respond s code res) where
  memory := h.memory
  ports := rfl
  status := fun _ => ⟨rfl, by simpa using hc⟩
  bus := h.bus

theorem ChipSide.inv_raise {s : State} (h : ChipSide s) (e : OpError) : Inv (raise s e) :=
  h.inv_respond (errorCode_toNat_le e) .nothing

theorem ChipSide.inv_conclude {s : State} (h : ChipSide s) (x : Except OpError Result) : Inv (conclude s x) := by
  obtain ⟨code, res, hc, hx⟩ := conclude_eq_respond s x
  rw [hx]
  exact h.inv_respond hc res

theorem ChipSide.inv_requestRead {s : State} (h : ChipSide s) (op : BusOp) : Inv (requestRead op s) where
  memory := h.memory
  ports := ⟨rfl, rfl, rfl, requestRead_bus_addr op s⟩
  status := by simp
  bus := h.bus

theorem ChipSide.inv_requestWrite {s : State} (h : ChipSide s) (hv : s.out.rspValid = false) (f : Field) (pat : Byte) :
    Inv (requestWrite f pat s) where
  memory := h.memory
  ports := ⟨hv, fun _ => ⟨rfl, rfl, rfl⟩⟩
  status := by simp [hv]
  bus := h.bus

/-- The invariant's clause on the ports, in each pending phase. -/
theorem Inv.readPending {s : State} {op : BusOp} (h : Inv s) (hp : s.phase = .readPending op) :
    s.out.rspValid = false ∧ s.bus.req = true ∧ s.bus.we = false ∧ s.bus.addr = fieldAddr (busOpField op) := by
  simpa [portsAgree, hp] using h.ports

theorem Inv.writePending {s : State} {f : Field} {pat : Byte} (h : Inv s) (hp : s.phase = .writePending f pat) :
    s.out.rspValid = false ∧
      (s.bus.req = true →
        s.bus.we = true ∧ s.bus.addr = fieldAddr f ∧ s.bus.wdata = pack s.config.table s.held f pat) := by
  simpa [portsAgree, hp] using h.ports

theorem inv_afterWrite {s : State} {f : Field} {pat : Byte} (h : Inv s) (hp : s.phase = .writePending f pat)
    (hr : s.bus.req = true) : Inv (afterWrite s) := by
  obtain ⟨-, hbus⟩ := h.writePending hp
  obtain ⟨-, haddr, -⟩ := hbus hr
  have hsettle (a : BusAnswer) : ChipSide (settle s a) :=
    h.chipSide.settle a (haddr ▸ blockMayTouch_fieldAddr f)
  rcases afterWrite_cases s with ⟨-, hw⟩ | ⟨a, -, -, hw⟩ | ⟨a, -, -, hw⟩ <;> rw [hw]
  · exact h
  · exact (hsettle a).inv_raise .busError
  · exact (hsettle a).inv_conclude (.ok .nothing)

theorem inv_requestWrite_afterWrite {s : State} (h : ChipSide s) (hv : s.out.rspValid = false) (f : Field)
    (pat : Byte) : Inv (afterWrite (requestWrite f pat s)) :=
  inv_afterWrite (h.inv_requestWrite hv f pat) rfl rfl

theorem inv_afterRead {s : State} {op : BusOp} (h : Inv s) (hp : s.phase = .readPending op) :
    Inv (afterRead op s) := by
  obtain ⟨hv, -, -, haddr⟩ := h.readPending hp
  have hsettle (a : BusAnswer) : ChipSide (settle s a) :=
    h.chipSide.settle a (haddr ▸ blockMayTouch_fieldAddr _)
  cases op with
  | get f =>
    rcases afterRead_get_cases f s with ⟨-, hw⟩ | ⟨a, -, -, hw⟩ | ⟨a, -, -, hw⟩ <;> rw [hw]
    · exact h
    · exact (hsettle a).inv_raise .busError
    · exact (hsettle a).inv_conclude _
  | set f pat =>
    rcases afterRead_set_cases f pat s with ⟨-, hw⟩ | ⟨a, -, -, hw⟩ | ⟨a, -, -, hw⟩ <;> rw [hw]
    · exact h
    · exact (hsettle a).inv_raise .busError
    · have hheld : ChipSide { settle s a with held := a.rdata } := ⟨(hsettle a).memory, (hsettle a).bus⟩
      exact inv_requestWrite_afterWrite hheld hv f pat

theorem ChipSide.inv_requestRead_afterRead {s : State} (h : ChipSide s) (op : BusOp) :
    Inv (afterRead op (requestRead op s)) :=
  inv_afterRead (h.inv_requestRead op) rfl

theorem inv_resume {s : State} (h : Inv s) : Inv (resume s) := by
  cases hp : s.phase with
  | idle => simpa [resume, hp] using h
  | readPending op =>
    obtain ⟨-, hr, -, -⟩ := h.readPending hp
    rw [resume_readPending hp, if_pos hr]
    exact inv_afterRead h hp
  | writePending f pat =>
    obtain ⟨hv, -⟩ := h.writePending hp
    rw [resume_writePending hp]
    split
    next hr => exact inv_afterWrite h hp hr
    next => exact inv_requestWrite_afterWrite h.chipSide hv f pat

theorem inv_resetBlock {s : State} (h : ChipSide s) : Inv (resetBlock s) where
  memory := resetBlock_keeps_wf s h.memory
  ports := rfl
  status := by simp
  bus := h.bus

/-- An instruction ends in a state of the invariant whatever the ports and the phase were. -/
theorem inv_exec {i : Instr} {s t : State} (hs : ChipSide s) (h : exec i s = .next t) : Inv t := by
  rcases instr_cases i with ⟨outcome, hx⟩ | ⟨imm, f, rfl⟩ | ⟨f, rfl⟩
  · obtain rfl := Host.Outcome.next.inj ((hx s).symm.trans h)
    exact hs.inv_conclude _
  · obtain rfl := Host.Outcome.next.inj ((exec_setInstr imm f s).symm.trans h)
    rcases runSet_cases f imm s with ⟨e, -, hw⟩ | ⟨pat, -, hw⟩ <;> rw [hw]
    · exact hs.inv_raise e
    · exact hs.inv_requestRead_afterRead _
  · obtain rfl := Host.Outcome.next.inj ((exec_getInstr f s).symm.trans h)
    exact hs.inv_requestRead_afterRead _

/-! ### What is never read: the ports after acceptance, and the log -/

/-- `s` with other values on the requester's ports, and with more transactions seen before those of its log. -/
def reframe (inp : Inputs) (earlier : List BusTxn) (s : State) : State :=
  { s with inp := inp, busLog := earlier ++ s.busLog }

section Reframe
variable (inp : Inputs) (earlier : List BusTxn)

theorem busAnswer_reframe (s : State) : busAnswer (reframe inp earlier s) = busAnswer s := rfl

theorem settle_reframe (s : State) (a : BusAnswer) :
    settle (reframe inp earlier s) a = reframe inp earlier (settle s a) := by
  simp only [settle, reframe, List.append_assoc]
  rfl

theorem conclude_reframe (s : State) (x : Except OpError Result) :
    conclude (reframe inp earlier s) x = reframe inp earlier (conclude s x) := by
  cases x <;> rfl

theorem afterWrite_reframe (s : State) :
    afterWrite (reframe inp earlier s) = reframe inp earlier (afterWrite s) := by
  rcases afterWrite_cases s with ⟨hb, h⟩ | ⟨a, hb, he, h⟩ | ⟨a, hb, he, h⟩ <;>
    rw [← busAnswer_reframe inp earlier] at hb <;> rw [h]
  · exact afterWrite_waiting hb
  · rw [afterWrite_failed hb he, settle_reframe]
    rfl
  · rw [afterWrite_done hb he, settle_reframe]
    rfl

theorem afterRead_reframe (op : BusOp) (s : State) :
    afterRead op (reframe inp earlier s) = reframe inp earlier (afterRead op s) := by
  cases op with
  | get f =>
    rcases afterRead_get_cases f s with ⟨hb, h⟩ | ⟨a, hb, he, h⟩ | ⟨a, hb, he, h⟩ <;>
      rw [← busAnswer_reframe inp earlier] at hb <;> rw [h]
    · exact afterRead_waiting _ hb
    · rw [afterRead_failed _ hb he, settle_reframe]
      rfl
    · rw [afterRead_get_done f hb he, settle_reframe, conclude_reframe]
      rfl
  | set f pat =>
    rcases afterRead_set_cases f pat s with ⟨hb, h⟩ | ⟨a, hb, he, h⟩ | ⟨a, hb, he, h⟩ <;>
      rw [← busAnswer_reframe inp earlier] at hb <;> rw [h]
    · exact afterRead_waiting _ hb
    · rw [afterRead_failed _ hb he, settle_reframe]
      rfl
    · rw [afterRead_set_done f pat hb he, settle_reframe, ← afterWrite_reframe]
      rfl

theorem resume_reframe (s : State) : resume (reframe inp earlier s) = reframe inp earlier (resume s) := by
  cases hp : s.phase with
  | idle => simp [resume, hp, reframe]
  | readPending op =>
    rw [resume_readPending hp, resume_readPending (s := reframe inp earlier s) hp, ← afterRead_reframe]
    exact congrArg (afterRead op) (apply_ite (reframe inp earlier) _ s (requestRead op s)).symm
  | writePending f pat =>
    rw [resume_writePending hp, resume_writePending (s := reframe inp earlier s) hp, ← afterWrite_reframe]
    exact congrArg afterWrite (apply_ite (reframe inp earlier) _ s (requestWrite f pat s)).symm

end Reframe

/-! ### What an instruction reads -/

/-- A block just out of reset among the surroundings of `s`: the ports, the configuration record, the target and the count
of free values are those of `s`; the response, the phase, the held byte, the bus port and the log are not. -/
def freshBlock (s : State) : State :=
  { State.reset with inp := s.inp, config := s.config, target := s.target, draws := s.draws }

theorem freshBlock_congr {s s' : State} (hi : s.inp = s'.inp) (hc : s.config = s'.config) (ht : s.target = s'.target)
    (hd : s.draws = s'.draws) : freshBlock s = freshBlock s' := by
  simp [freshBlock, hi, hc, ht, hd]

theorem conclude_freshBlock (s : State) (x : Except OpError Result) :
    conclude s x = reframe s.inp s.busLog (conclude (freshBlock s) x) := by
  cases x <;> simp [conclude, finish, raise, respond, reframe, freshBlock, State.reset]

theorem requestRead_freshBlock (op : BusOp) (s : State) :
    requestRead op s = reframe s.inp s.busLog (requestRead op (freshBlock s)) := by
  simp [requestRead, reframe, freshBlock, State.reset]

theorem runGet_freshBlock (f : Field) (s : State) :
    runGet f s = reframe s.inp s.busLog (runGet f (freshBlock s)) := by
  rw [runGet, requestRead_freshBlock, afterRead_reframe, ← runGet]

theorem runSet_freshBlock (f : Field) (imm : Byte) (s : State) :
    runSet f imm s = reframe s.inp s.busLog (runSet f imm (freshBlock s)) := by
  have hconfig : (freshBlock s).config = s.config := rfl
  unfold runSet
  rw [hconfig]
  cases optionPattern s.config.table f imm with
  | error e => exact conclude_freshBlock s (.error e)
  | ok pat => simp only [requestRead_freshBlock _ s, afterRead_reframe]

/-- An instruction does what it does from a block just out of reset; only the log of earlier transactions differs. -/
theorem exec_freshBlock (i : Instr) (s : State) :
    ∃ u, exec i (freshBlock s) = .next u ∧ exec i s = .next (reframe s.inp s.busLog u) := by
  rcases instr_cases i with ⟨outcome, hx⟩ | ⟨imm, f, rfl⟩ | ⟨f, rfl⟩
  · exact ⟨_, hx (freshBlock s), by rw [hx, conclude_freshBlock]; rfl⟩
  · exact ⟨_, exec_setInstr imm f _, by rw [exec_setInstr, runSet_freshBlock]⟩
  · exact ⟨_, exec_getInstr f _, by rw [exec_getInstr, runGet_freshBlock]⟩

/-! ### The obligations -/

/-- Settles O4, by the branches of the step: reset, waiting, an instruction, a reserved word, an operation in flight. -/
theorem everyStepKeepsTheInvariant : Obligations.EveryStepKeepsTheInvariant := by
  intro s t hs ht
  rcases step_cases s with ⟨-, h⟩ | ⟨-, -, -, h⟩ | ⟨-, -, -, ⟨i, -, h⟩ | ⟨why, -, h⟩⟩ | ⟨-, -, h⟩ <;> rw [h] at ht
  case inr.inr.inl.inl => exact inv_exec hs.chipSide ht
  all_goals obtain rfl := Host.Outcome.next.inj ht
  · exact inv_resetBlock hs.chipSide
  · exact hs
  · exact hs.chipSide.inv_raise .illegalCommand
  · exact inv_resume hs

/-- Settles O9, by the branches of the step. -/
theorem noStepChangesTheSurroundings : Obligations.NoStepChangesTheSurroundings := by
  intro s t ht
  rcases step_cases s with ⟨-, h⟩ | ⟨-, -, -, h⟩ | ⟨-, -, -, ⟨i, -, h⟩ | ⟨why, -, h⟩⟩ | ⟨-, -, h⟩ <;> rw [h] at ht
  case inr.inr.inl.inl => exact sameSurroundings_exec ht
  all_goals obtain rfl := Host.Outcome.next.inj ht
  · exact ⟨rfl, rfl, rfl⟩
  · exact sameSurroundings_refl s
  · exact ⟨rfl, rfl, rfl⟩
  · exact sameSurroundings_resume s

/-- Settles O10: both runs are the run of one block just out of reset, and its log is what is new. -/
theorem operationsKeepNoMemoryOfEarlierOnes : Obligations.OperationsKeepNoMemoryOfEarlierOnes := by
  intro i s s' t t' hi hc htgt hd ht ht'
  obtain ⟨u, hu, h⟩ := exec_freshBlock i s
  obtain ⟨u', hu', h'⟩ := exec_freshBlock i s'
  obtain rfl := Host.Outcome.next.inj (h.symm.trans ht)
  obtain rfl := Host.Outcome.next.inj (h'.symm.trans ht')
  rw [← freshBlock_congr hi hc htgt hd] at hu'
  obtain rfl := Host.Outcome.next.inj (hu.symm.trans hu')
  exact ⟨rfl, rfl, rfl, rfl, rfl, u.busLog, rfl, rfl⟩

/-- Settles O19: an instruction of groups 0 to 3 ends at once, and a response touches nothing outside the block. -/
theorem pureOperationsTouchNothingOutside : Obligations.PureOperationsTouchNothingOutside := by
  intro i s hi
  obtain ⟨outcome, hx⟩ := endsAtOnce_of_not_usesBus hi
  obtain ⟨code, res, -, hr⟩ := conclude_eq_respond s (outcome s.inp s.config)
  obtain ⟨hphase, hreq, hvalid, -⟩ := respond_responds s code res
  exact ⟨respond s code res, by rw [hx, hr], hphase, hvalid, hreq, ⟨rfl, rfl, rfl⟩, fun _ => rfl, rfl, rfl⟩

/-- Settles O49: going on with an operation in flight does not read the requester's ports. -/
theorem operandsAreSampledAtAcceptance : Obligations.OperandsAreSampledAtAcceptance := by
  intro s t inp hp hr hr' ht
  obtain rfl := Host.Outcome.next.inj ((step_inFlight hr hp).symm.trans ht)
  have hstep : step (reframe inp [] s) = .next (resume (reframe inp [] s)) := step_inFlight hr' hp
  rw [resume_reframe] at hstep
  exact hstep

/-- Settles O6. -/
theorem stepRunsTheDecodedInstruction : Obligations.StepRunsTheDecodedInstruction :=
  fun _ _ hr hp hc hd => step_idle_offer hr hp hc hd

/-- Settles O7: the word on the port is the encoding, which decodes to the instruction. -/
theorem offeredWordRunsNext : Obligations.OfferedWordRunsNext := by
  intro s i
  have hcmd : (s.withFetchWord 16 (encode i).toNat).inp.cmd = encode i := by
    rw [withFetchWord_inp_cmd, Nat.mod_eq_of_lt (encode i).isLt, BitVec.ofNat_toNat, BitVec.setWidth_eq]
  exact step_idle_offer rfl rfl rfl (by rw [hcmd, decode_encode])

/-- Settles O8. -/
theorem idleBlockWaitsForACommand : Obligations.IdleBlockWaitsForACommand :=
  fun _ hr hp hc => step_idle_noOffer hr hp hc

end Sys2Proof.Machine

/-! ## Proofs: the chip registers and the bus (spec 20_memory)

First what a register reads after an acknowledged write, and a bus operation seen from its requested read: while nothing
is answered, once the read is answered, and on the store target, which answers both transactions. Then the bus traffic
of every shared operation, and that the block's fields share no bit with the chip's other named fields. -/
namespace Sys2Proof.Machine

/-! ### Registers, the oracle's answers, responses -/

/-- An acknowledged write stores its byte (20_memory R51 (b); log 11). -/
theorem settle_write_readReg {s : State} {a : BusAnswer} (hw : s.bus.we = true) (he : a.err = false)
    (hwf : Memory.wf s.target.reg = true) : (settle s a).readReg s.bus.addr = s.bus.wdata := by
  rw [State.readReg, settle_target_reg, regAfter_write_ok hw he]
  exact memRead_memWrite_same _ _ hwf

@[simp] theorem finish_readReg (s : State) (res : Result) (c : Addr) : (finish s res).readReg c = s.readReg c := rfl

@[simp] theorem targetAnswers_readReg (as : List BusAnswer) (s : State) (c : Addr) :
    (targetAnswers as s).readReg c = s.readReg c := rfl

theorem otherWrite_readReg_ne (s : State) {a c : Addr} (z : Byte) (h : c ≠ a) :
    (otherWrite a z s).readReg c = s.readReg c :=
  memRead_memWrite_ne _ z h

theorem busAnswer_oracleWith {as : List BusAnswer} {s : State} (hreq : s.bus.req = true) (ho : oracleWith as s) :
    busAnswer s = as.head? := by
  obtain ⟨hmodel, rfl⟩ := ho
  exact busAnswer_oracle hreq hmodel

theorem responded_finish (s : State) (res : Result) : responded (finish s res) 0 :=
  respond_responds s statusOk res

/-! ### A bus operation, from its requested read -/

/-- A set whose read has been answered with `x`: the byte is held and its packed form is on the bus, not answered yet
(43_bitfield_rmw R160). -/
def writeRequested (f : Field) (pat x : Byte) (s : State) : State :=
  requestWrite f pat { settle (requestRead (.set f pat) s) ⟨false, x⟩ with held := x }

section WriteRequested
variable (f : Field) (pat x : Byte) (s : State)

@[simp] theorem writeRequested_phase : (writeRequested f pat x s).phase = .writePending f pat := rfl
@[simp] theorem writeRequested_held : (writeRequested f pat x s).held = x := rfl
@[simp] theorem writeRequested_bus :
    (writeRequested f pat x s).bus = ⟨true, true, fieldAddr f, pack s.config.table x f pat⟩ := rfl
@[simp] theorem writeRequested_target_reg : (writeRequested f pat x s).target.reg = s.target.reg := rfl

/-- The answer to the read is used up. -/
theorem oracleWith_writeRequested {a : BusAnswer} {rest : List BusAnswer} (ho : oracleWith (a :: rest) s) :
    oracleWith rest (writeRequested f pat x s) := by
  obtain ⟨hmodel, hanswers⟩ := ho
  have htail := settle_target_answers_oracle (s := requestRead (.set f pat) s) ⟨false, x⟩ hmodel
  rw [requestRead_target, hanswers, List.tail_cons] at htail
  exact ⟨hmodel, htail⟩

theorem writeRequested_sameRegisters : sameRegisters s (writeRequested f pat x s) :=
  fun _ => by rw [State.readReg, writeRequested_target_reg, State.readReg]

end WriteRequested

theorem runSet_of_option {f : Field} {imm pat : Byte} {s : State}
    (h : (fieldSpec s.config.table f).enc.lookup imm = some pat) :
    runSet f imm s = afterRead (.set f pat) (requestRead (.set f pat) s) := by
  simp [runSet, optionPattern_of_some h]

/-- A bus operation the oracle target does not answer stays where its read is requested (70_reset_and_hazards R241). -/
theorem afterRead_requestRead_unanswered (op : BusOp) {s : State} (h : oracleWith [] s) :
    afterRead op (requestRead op s) = requestRead op s :=
  afterRead_waiting op (busAnswer_oracleWith (s := requestRead op s) rfl h)

/-- A requested read goes on with answers that come late as it would with the same answers there from the start. -/
theorem step_targetAnswers_requestRead (op : BusOp) (as : List BusAnswer) {s : State} (hr : s.inp.rst = false) :
    step (targetAnswers as (requestRead op s)) = .next (afterRead op (requestRead op (targetAnswers as s))) := by
  have hphase : (targetAnswers as (requestRead op s)).phase = .readPending op := rfl
  have hrst : (targetAnswers as (requestRead op s)).inp.rst = false := hr
  rw [step_inFlight hrst (by simp), resume_readPending hphase]
  rfl

/-- A set whose read is answered goes on from its requested write, whatever the target. -/
theorem runSet_readDone {f : Field} {imm pat x : Byte} {s : State}
    (h : (fieldSpec s.config.table f).enc.lookup imm = some pat)
    (hx : busAnswer (requestRead (.set f pat) s) = some ⟨false, x⟩) :
    runSet f imm s = afterWrite (writeRequested f pat x s) := by
  rw [runSet_of_option h, afterRead_set_done f pat hx rfl]
  rfl

/-- On the store target a set reads its register, writes the packed byte and ends with `OK` (43_bitfield_rmw R160). -/
theorem runSet_store {f : Field} {imm pat : Byte} {s : State} (hs : storeTarget s)
    (h : (fieldSpec s.config.table f).enc.lookup imm = some pat) :
    runSet f imm s = finish (settle (writeRequested f pat (s.readReg (fieldAddr f)) s)
      ⟨false, Config.freeBusRdata (s.draws + 1)⟩) .nothing := by
  rw [runSet_readDone h (busAnswer_store_read rfl rfl hs)]
  exact afterWrite_done (busAnswer_store_write rfl rfl hs) rfl

/-- On the oracle target a set whose read is the only transaction answered waits with its write on the bus. -/
theorem runSet_oracle_writeUnanswered {f : Field} {imm pat x : Byte} {s : State} (ho : oracleWith [⟨false, x⟩] s)
    (h : (fieldSpec s.config.table f).enc.lookup imm = some pat) : runSet f imm s = writeRequested f pat x s := by
  have hread : busAnswer (requestRead (.set f pat) s) = some ⟨false, x⟩ :=
    busAnswer_oracleWith (s := requestRead (.set f pat) s) rfl ho
  have hwrite : busAnswer (writeRequested f pat x s) = none :=
    busAnswer_oracleWith rfl (oracleWith_writeRequested f pat x s ho)
  rw [runSet_readDone h hread, afterWrite_waiting hwrite]

/-- A write on the bus that the target acknowledges ends with `OK` in the next step (43_bitfield_rmw R160). -/
theorem step_writePending_done {s : State} {f : Field} {pat : Byte} {a : BusAnswer} (hr : s.inp.rst = false)
    (hp : s.phase = .writePending f pat) (hreq : s.bus.req = true) (ha : busAnswer s = some a) (he : a.err = false) :
    step s = .next (finish (settle s a) .nothing) := by
  rw [step_inFlight hr (by simp [hp]), resume_writePending hp, if_pos hreq, afterWrite_done ha he]

/-- A byte written from outside to the register of a requested write does not last: the write is acknowledged after it
(20_memory R45). -/
theorem pendingWrite_overrides_otherWrite {s : State} {f : Field} {pat : Byte} (y z : Byte) (hr : s.inp.rst = false)
    (hp : s.phase = .writePending f pat) (hreq : s.bus.req = true) (hwe : s.bus.we = true) (ho : oracleWith [] s)
    (hwf : Memory.wf s.target.reg = true) :
    ∃ u, step (targetAnswers [⟨false, y⟩] (otherWrite s.bus.addr z s)) = .next u ∧ responded u 0 ∧
      u.readReg s.bus.addr = s.bus.wdata ∧ sameRegistersBut s.bus.addr s u := by
  obtain ⟨hmodel, hanswers⟩ := ho
  have hack : busAnswer (targetAnswers [⟨false, y⟩] (otherWrite s.bus.addr z s)) = some ⟨false, y⟩ :=
    busAnswer_oracleWith (as := [⟨false, y⟩]) hreq ⟨hmodel, by simp [hanswers]⟩
  refine ⟨_, step_writePending_done hr hp hreq hack rfl, responded_finish _ _, ?_, fun c hc => ?_⟩
  · exact (finish_readReg _ _ _).trans (settle_write_readReg hwe rfl (otherWrite_keeps_wf _ z s hwf))
  · rw [finish_readReg, settle_readReg_ne, targetAnswers_readReg, otherWrite_readReg_ne s z hc]
    exact hc

/-! ### The traffic of the shared operations -/

/-- The request on the bus, where there is one, is at one of the three registers (20_memory R32). -/
def requestAllowed (s : State) : Prop :=
  s.bus.req = true → blockMayTouch s.bus.addr = true

/-- From `s` to `t` at most `n` transactions were answered, all at the three registers, after those seen before; and so
is the request still on the bus in `t` (20_memory R32, R47). -/
def AddsTraffic (n : Nat) (s t : State) : Prop :=
  ∃ new, t.busLog = s.busLog ++ new ∧ new.length ≤ n ∧ (∀ x ∈ new, blockMayTouch (txnAddr x) = true) ∧
    requestAllowed t

theorem AddsTraffic.of_busLog_eq {s t : State} (hlog : t.busLog = s.busLog) (ht : requestAllowed t) (n : Nat) :
    AddsTraffic n s t :=
  ⟨[], by simpa using hlog, n.zero_le, by simp, ht⟩

theorem AddsTraffic.trans {m n : Nat} {s t u : State} (hst : AddsTraffic m s t) (htu : AddsTraffic n t u) :
    AddsTraffic (m + n) s u := by
  obtain ⟨new, hlog, hlen, hnew, -⟩ := hst
  obtain ⟨new', hlog', hlen', hnew', hu⟩ := htu
  refine ⟨new ++ new', by rw [hlog', hlog, List.append_assoc], by rw [List.length_append]; omega, ?_, hu⟩
  intro x hx
  exact (List.mem_append.mp hx).elim (hnew x) (hnew' x)

theorem requestAllowed_idle {s : State} (h : s.bus.req = false) : requestAllowed s := by
  simp [requestAllowed, h]

theorem requestAllowed_requestRead (op : BusOp) (s : State) : requestAllowed (requestRead op s) :=
  fun _ => requestRead_bus_addr op s ▸ blockMayTouch_fieldAddr _

theorem requestAllowed_requestWrite (f : Field) (pat : Byte) (s : State) : requestAllowed (requestWrite f pat s) :=
  fun _ => blockMayTouch_fieldAddr f

theorem addsTraffic_respond (n : Nat) (s : State) (code : BitVec 3) (res : Result) :
    AddsTraffic n s (respond s code res) :=
  .of_busLog_eq rfl (requestAllowed_idle rfl) n

theorem addsTraffic_conclude (n : Nat) (s : State) (x : Except OpError Result) : AddsTraffic n s (conclude s x) := by
  obtain ⟨code, res, -, h⟩ := conclude_eq_respond s x
  exact h ▸ addsTraffic_respond n s code res

/-- An answered transaction is seen once, at the address that was on the bus. -/
theorem addsTraffic_settle {s : State} {a : BusAnswer} (hs : requestAllowed s) (ha : busAnswer s = some a) :
    AddsTraffic 1 s (settle s a) := by
  have hreq : s.bus.req = true := by
    by_contra hreq
    simp [busAnswer_idle (Bool.not_eq_true _ ▸ hreq)] at ha
  refine ⟨[observedTxn s.bus a], rfl, le_rfl, ?_, requestAllowed_idle rfl⟩
  simpa [txnAddr_observedTxn] using hs hreq

theorem addsTraffic_afterWrite {s : State} (hs : requestAllowed s) : AddsTraffic 1 s (afterWrite s) := by
  rcases afterWrite_cases s with ⟨-, h⟩ | ⟨a, ha, -, h⟩ | ⟨a, ha, -, h⟩ <;> rw [h]
  · exact .of_busLog_eq rfl hs 1
  · exact (addsTraffic_settle hs ha).trans (addsTraffic_respond 0 _ _ _)
  · exact (addsTraffic_settle hs ha).trans (addsTraffic_respond 0 _ _ _)

theorem addsTraffic_afterRead (op : BusOp) {s : State} (hs : requestAllowed s) : AddsTraffic 2 s (afterRead op s) := by
  cases op with
  | get f =>
    rcases afterRead_get_cases f s with ⟨-, h⟩ | ⟨a, ha, -, h⟩ | ⟨a, ha, -, h⟩ <;> rw [h]
    · exact .of_busLog_eq rfl hs 2
    · exact (addsTraffic_settle hs ha).trans (addsTraffic_respond 1 _ _ _)
    · exact (addsTraffic_settle hs ha).trans (addsTraffic_conclude 1 _ _)
  | set f pat =>
    rcases afterRead_set_cases f pat s with ⟨-, h⟩ | ⟨a, ha, -, h⟩ | ⟨a, ha, -, h⟩ <;> rw [h]
    · exact .of_busLog_eq rfl hs 2
    · exact (addsTraffic_settle hs ha).trans (addsTraffic_respond 1 _ _ _)
    · have hwrite : AddsTraffic 0 (settle s a) (requestWrite f pat { settle s a with held := a.rdata }) :=
        .of_busLog_eq rfl (requestAllowed_requestWrite f pat _) 0
      exact ((addsTraffic_settle hs ha).trans hwrite).trans
        (addsTraffic_afterWrite (requestAllowed_requestWrite f pat _))

theorem addsTraffic_requestRead_afterRead (op : BusOp) (s : State) :
    AddsTraffic 2 s (afterRead op (requestRead op s)) :=
  have hread : AddsTraffic 0 s (requestRead op s) := .of_busLog_eq rfl (requestAllowed_requestRead op s) 0
  hread.trans (addsTraffic_afterRead op (requestAllowed_requestRead op s))

theorem addsTraffic_exec {i : Instr} {s t : State} (h : exec i s = .next t) : AddsTraffic 2 s t := by
  rcases instr_cases i with ⟨outcome, hx⟩ | ⟨imm, f, rfl⟩ | ⟨f, rfl⟩
  · obtain rfl := Host.Outcome.next.inj ((hx s).symm.trans h)
    exact addsTraffic_conclude 2 s _
  · obtain rfl := Host.Outcome.next.inj ((exec_setInstr imm f s).symm.trans h)
    rcases runSet_cases f imm s with ⟨e, -, hw⟩ | ⟨pat, -, hw⟩ <;> rw [hw]
    · exact addsTraffic_respond 2 s _ _
    · exact addsTraffic_requestRead_afterRead _ s
  · obtain rfl := Host.Outcome.next.inj ((exec_getInstr f s).symm.trans h)
    exact addsTraffic_requestRead_afterRead _ s

theorem Inv.requestAllowed {s : State} (h : Inv s) : requestAllowed s := by
  intro hreq
  cases hp : s.phase with
  | idle =>
    have hidle : s.bus.req = false := by simpa [portsAgree, hp] using h.ports
    simp [hidle] at hreq
  | readPending op =>
    obtain ⟨-, -, -, haddr⟩ := h.readPending hp
    exact haddr ▸ blockMayTouch_fieldAddr _
  | writePending f pat =>
    obtain ⟨-, hbus⟩ := h.writePending hp
    obtain ⟨-, haddr, -⟩ := hbus hreq
    exact haddr ▸ blockMayTouch_fieldAddr f

theorem addsTraffic_resume {s : State} (h : Inv s) : AddsTraffic 2 s (resume s) := by
  cases hp : s.phase with
  | idle => simpa [resume, hp] using AddsTraffic.of_busLog_eq rfl h.requestAllowed 2
  | readPending op =>
    obtain ⟨-, hr, -, -⟩ := h.readPending hp
    rw [resume_readPending hp, if_pos hr]
    exact addsTraffic_afterRead op h.requestAllowed
  | writePending f pat =>
    rw [resume_writePending hp]
    split
    · exact (AddsTraffic.of_busLog_eq rfl h.requestAllowed 1).trans (addsTraffic_afterWrite h.requestAllowed)
    · have hallowed := requestAllowed_requestWrite f pat s
      exact (AddsTraffic.of_busLog_eq rfl hallowed 1).trans (addsTraffic_afterWrite hallowed)

theorem addsTraffic_step {s t : State} (hs : Inv s) (ht : step s = .next t) : AddsTraffic 2 s t := by
  rcases step_cases s with ⟨-, h⟩ | ⟨-, -, -, h⟩ | ⟨-, -, -, ⟨i, -, h⟩ | ⟨why, -, h⟩⟩ | ⟨-, -, h⟩ <;> rw [h] at ht
  case inr.inr.inl.inl => exact addsTraffic_exec ht
  all_goals obtain rfl := Host.Outcome.next.inj ht
  · exact .of_busLog_eq rfl (requestAllowed_idle rfl) 2
  · exact .of_busLog_eq rfl hs.requestAllowed 2
  · exact addsTraffic_respond 2 s _ _
  · exact addsTraffic_resume hs

/-! ### The block's fields among the chip's named fields -/

/-- An option's pattern lies inside its field's mask, where the table meets R130 (b). -/
theorem enc_lookup_in_mask {spec : FieldSpec} (h : spec.patternsInMask = true) {imm pat : Byte}
    (hl : spec.enc.lookup imm = some pat) : pat &&& ~~~spec.mask = 0 := by
  obtain ⟨before, after, henc, -⟩ := List.lookup_eq_some_iff.mp hl
  rw [FieldSpec.patternsInMask, List.all_eq_true] at h
  exact beq_iff_eq.mp (h (imm, pat) (by simp [henc]))

/-- Packing a pattern of a field changes no bit outside the field's mask (42_bitfield_pack R131). -/
theorem pack_and_of_disjoint {t : FieldTable} {f : Field} {pat m : Byte} (old : Byte)
    (hpat : pat &&& ~~~(fieldSpec t f).mask = 0) (hm : (fieldSpec t f).mask &&& m = 0) :
    pack t old f pat &&& m = old &&& m := by
  ext i hi
  have hpatBit : pat[i] = true → (fieldSpec t f).mask[i] = true := by
    simpa [hi] using congrArg (·.getLsbD i) hpat
  have hmaskBit : (fieldSpec t f).mask[i] = true → m[i] = false := by
    simpa [hi] using congrArg (·.getLsbD i) hm
  cases hbit : (fieldSpec t f).mask[i] with
  | true => simp [hmaskBit hbit]
  | false =>
    have hclear : pat[i] = false := by simpa [hbit] using hpatBit
    simp [pack, hbit, hclear]

theorem defaultTable_patternsInMask (f : Field) : (fieldSpec defaultTable f).patternsInMask = true := by
  cases f <;> decide

/-- In the default layout a field of the block shares no bit with another named field of its register (PRESUMED, log 18
and log 27). -/
theorem defaultMask_disjoint (f : Field) (c : ChipField) :
    c ≠ chipFieldOf f → chipAddr (chipFieldRegister c) = fieldAddr f →
      (fieldSpec defaultTable f).mask &&& chipFieldMask c = 0 := by
  cases f <;> cases c <;> decide

/-! ### The obligations -/

/-- Settles O48: without an answer the operation stops at its requested read, and there it finds the late answers. -/
theorem lateAnswersEndTheSame : Obligations.LateAnswersEndTheSame := by
  intro f imm pat as s hr ho hpat
  constructor <;> intro t ht
  · rw [exec_getInstr, runGet, afterRead_requestRead_unanswered _ ho] at ht
    obtain rfl := Host.Outcome.next.inj ht
    rw [step_targetAnswers_requestRead _ as hr, exec_getInstr, runGet]
  · rw [exec_setInstr, runSet_of_option hpat, afterRead_requestRead_unanswered _ ho] at ht
    obtain rfl := Host.Outcome.next.inj ht
    rw [step_targetAnswers_requestRead _ as hr, exec_setInstr, runSet_of_option (s := targetAnswers as s) hpat]

/-- Settles O50: the write on the bus carries the byte computed from the read, so its acknowledgement stores that byte
over whatever stands in the register. -/
theorem lostUpdate : Obligations.LostUpdate := by
  intro f imm pat x y z s hr ho hwf hpat
  refine ⟨writeRequested f pat x s, by rw [exec_setInstr, runSet_oracle_writeUnanswered ho hpat],
    writeRequested_phase f pat x s, writeRequested_held f pat x s, by simp, by simp,
    writeRequested_sameRegisters f pat x s, ?_⟩
  exact pendingWrite_overrides_otherWrite (s := writeRequested f pat x s) y z hr rfl rfl rfl
    (oracleWith_writeRequested f pat x s ho) hwf

/-- Settles O51, by the traffic of every instruction and of every branch of the step. -/
theorem busTrafficStaysAtTheThreeRegisters : Obligations.BusTrafficStaysAtTheThreeRegisters :=
  ⟨fun _ _ _ h => addsTraffic_exec h, fun _ _ hs h => addsTraffic_step hs h⟩

/-- Settles O52: a named field lies in another register, or beside the field in the same one. -/
theorem setPreservesEveryOtherNamedField : Obligations.SetPreservesEveryOtherNamedField := by
  intro f c imm pat s hs hwf htable hpat hc
  have hset := runSet_store hs (htable ▸ hpat)
  refine ⟨_, by rw [exec_setInstr, hset], responded_finish _ _, ?_⟩
  rw [finish_readReg]
  by_cases haddr : chipAddr (chipFieldRegister c) = fieldAddr f
  · have hpacked := settle_write_readReg (s := writeRequested f pat (s.readReg (fieldAddr f)) s)
      (a := ⟨false, Config.freeBusRdata (s.draws + 1)⟩) rfl rfl hwf
    rw [writeRequested_bus, htable] at hpacked
    rw [haddr, hpacked]
    exact pack_and_of_disjoint _ (enc_lookup_in_mask (defaultTable_patternsInMask f) hpat)
      (defaultMask_disjoint f c hc haddr)
  · rw [settle_readReg_ne _ _ haddr, writeRequested_sameRegisters]

end Sys2Proof.Machine

/-! ## Proofs: command words (spec 30_encoding)

First the decoder: one case split over the opcode map says of every pair of group and function what is decoded or why the
word is reserved, so that decoding and encoding are inverse. Then the rows of the map: a row selects exactly the words of
its own instructions. Then a reserved word at the command port. Last, the hour mode a get answers with, which is that of a
field of one bit. -/
namespace Sys2Proof.Machine

/-! ### The opcode map, by group and function -/

/-- The fields of a reserved word: no such group, no such function of the group, or an immediate where the group takes none
(30_encoding R66). -/
def reservedFields (grp fn : Nat) (imm : Byte) : Prop :=
  6 ≤ grp ∨ (grp ≤ 1 ∧ 2 ≤ fn) ∨ (2 ≤ grp ∧ grp ≤ 5 ∧ 5 ≤ fn) ∨ ((grp = 0 ∨ grp = 3 ∨ grp = 5) ∧ imm ≠ 0)

/-- The decoder's answer for these fields is right: an instruction whose word has these fields, or a rejection of reserved
ones (30_encoding R63, R66). -/
def FollowsOpcodeMap (grp fn : Nat) (imm : Byte) : Except Reserved Instr → Prop
  | .ok i => encode i = assembleWord (BitVec.ofNat 4 grp) (BitVec.ofNat 4 fn) imm ∧ ¬reservedFields grp fn imm
  | .error _ => reservedFields grp fn imm

/-- An operation without an immediate is decoded right where nothing but an immediate makes its fields reserved. -/
theorem followsOpcodeMap_withoutImm {grp fn : Nat} {i : Instr} (imm : Byte)
    (hword : encode i = assembleWord (BitVec.ofNat 4 grp) (BitVec.ofNat 4 fn) 0)
    (hreserved : reservedFields grp fn imm ↔ imm ≠ 0) : FollowsOpcodeMap grp fn imm (withoutImm imm i) := by
  by_cases himm : imm = 0
  · subst himm
    exact ⟨hword, fun hr => hreserved.mp hr rfl⟩
  · rw [withoutImm, if_neg himm]
    exact hreserved.mpr himm

/-- The decoder follows the opcode map on all fields. Its branches are of three kinds: an operation without an immediate
(groups 0, 3 and 5), one with an immediate (groups 1, 2 and 4), and a rejection. -/
theorem decodeFields_followsOpcodeMap (grp fn : Nat) (imm : Byte) :
    FollowsOpcodeMap grp fn imm (decodeFields grp fn imm) := by
  unfold decodeFields
  split
  case h_1 | h_2 | h_10 | h_11 | h_12 | h_13 | h_14 | h_20 | h_21 | h_22 | h_23 | h_24 =>
    exact followsOpcodeMap_withoutImm imm rfl (by simp [reservedFields])
  case h_3 | h_4 | h_5 | h_6 | h_7 | h_8 | h_9 | h_15 | h_16 | h_17 | h_18 | h_19 =>
    exact ⟨rfl, by simp [reservedFields]⟩
  case h_25 | h_26 => exact .inr (.inl ⟨by decide, by grind⟩)
  case h_27 | h_28 | h_29 | h_30 => exact .inr (.inr (.inl ⟨by decide, by decide, by grind⟩))
  case h_31 => exact .inl (by grind)

/-- What decoding a word can do: give the instruction whose word it is, or reject a reserved word. -/
theorem decode_cases (w : CmdWord) :
    (∃ i, decode w = .ok i ∧ encode i = w ∧ ¬reservedFields (cmdGrp w).toNat (cmdFn w).toNat (cmdImm w)) ∨
      ∃ why, decode w = .error why ∧ reservedFields (cmdGrp w).toNat (cmdFn w).toNat (cmdImm w) := by
  have hmap := decodeFields_followsOpcodeMap (cmdGrp w).toNat (cmdFn w).toNat (cmdImm w)
  rw [← decode] at hmap
  cases hd : decode w with
  | ok i =>
    rw [hd, FollowsOpcodeMap, BitVec.ofNat_toNat, BitVec.ofNat_toNat, BitVec.setWidth_eq, BitVec.setWidth_eq,
      assembleWord_fields] at hmap
    exact .inl ⟨i, rfl, hmap⟩
  | error why =>
    rw [hd] at hmap
    exact .inr ⟨why, rfl, hmap⟩

/-- Decoding and encoding are inverse to each other. -/
theorem decode_eq_ok_iff {w : CmdWord} {i : Instr} : decode w = .ok i ↔ encode i = w := by
  constructor
  · intro h
    rcases decode_cases w with ⟨j, hj, hword, -⟩ | ⟨why, hwhy, -⟩
    · obtain rfl := Except.ok.inj (hj.symm.trans h)
      exact hword
    · simp [hwhy] at h
  · rintro rfl
    exact decode_encode i

theorem encode_injective : Function.Injective encode :=
  fun i _ h => Except.ok.inj ((decode_encode i).symm.trans (h ▸ decode_encode _))

/-- The reserved words, by their fields (30_encoding R66). -/
theorem decode_eq_error_iff (w : CmdWord) :
    (∃ why, decode w = .error why) ↔ reservedFields (cmdGrp w).toNat (cmdFn w).toNat (cmdImm w) := by
  rcases decode_cases w with ⟨i, hi, -, hnot⟩ | ⟨why, hwhy, hreserved⟩
  · simp [hi, hnot]
  · simp [hwhy, hreserved]

/-! ### The rows of the opcode map -/

/-- The row of an operation without an immediate selects one word. -/
def FixedRow (i : Instr) : Prop :=
  opcodeRow i = ⟨encode i, 0xFFFF⟩

/-- The operation stands in the row of this group and function with every immediate. -/
def ImmediateRow (grp fn : BitVec 4) (operation : Byte → Instr) : Prop :=
  ∀ imm, encode (operation imm) = assembleWord grp fn imm ∧ opcodeRow (operation imm) = ⟨assembleWord grp fn 0, 0xFF00⟩

/-- The two kinds of rows (30_encoding R63). -/
theorem opcodeRow_cases (i : Instr) :
    FixedRow i ∨ ∃ grp fn operation imm, ImmediateRow grp fn operation ∧ i = operation imm := by
  cases i with
  | enctime mode => exact .inr ⟨1, 0, .enctime, mode, fun _ => ⟨rfl, rfl⟩, rfl⟩
  | dectime mode => exact .inr ⟨1, 1, .dectime, mode, fun _ => ⟨rfl, rfl⟩, rfl⟩
  | packdrive opt => exact .inr ⟨2, 0, .packdrive, opt, fun _ => ⟨rfl, rfl⟩, rfl⟩
  | packloadcap opt => exact .inr ⟨2, 1, .packloadcap, opt, fun _ => ⟨rfl, rfl⟩, rfl⟩
  | packhourmode mode => exact .inr ⟨2, 2, .packhourmode, mode, fun _ => ⟨rfl, rfl⟩, rfl⟩
  | pack100th opt => exact .inr ⟨2, 3, .pack100th, opt, fun _ => ⟨rfl, rfl⟩, rfl⟩
  | packbatsw opt => exact .inr ⟨2, 4, .packbatsw, opt, fun _ => ⟨rfl, rfl⟩, rfl⟩
  | setdrive opt => exact .inr ⟨4, 0, .setdrive, opt, fun _ => ⟨rfl, rfl⟩, rfl⟩
  | setloadcap opt => exact .inr ⟨4, 1, .setloadcap, opt, fun _ => ⟨rfl, rfl⟩, rfl⟩
  | sethourmode mode => exact .inr ⟨4, 2, .sethourmode, mode, fun _ => ⟨rfl, rfl⟩, rfl⟩
  | set100th opt => exact .inr ⟨4, 3, .set100th, opt, fun _ => ⟨rfl, rfl⟩, rfl⟩
  | setbatsw opt => exact .inr ⟨4, 4, .setbatsw, opt, fun _ => ⟨rfl, rfl⟩, rfl⟩
  | _ => exact .inl rfl

theorem fixedRow_selects_iff {i : Instr} (h : FixedRow i) (w : CmdWord) :
    (opcodeRow i).selects w = true ↔ w = encode i := by
  have hall : (0xFFFF : CmdWord) = BitVec.allOnes 16 := rfl
  rw [h, OpcodeRow.selects, beq_iff_eq, hall, BitVec.and_allOnes]

theorem immediateRow_selects_iff {grp fn : BitVec 4} {operation : Byte → Instr} (h : ImmediateRow grp fn operation)
    (imm : Byte) (w : CmdWord) :
    (opcodeRow (operation imm)).selects w = true ↔ cmdGrp w = grp ∧ cmdFn w = fn := by
  obtain ⟨-, hrow⟩ := h imm
  have hhigh : w &&& 0xFF00 = assembleWord (cmdGrp w) (cmdFn w) 0 := by
    rw [← assembleWord_high _ _ (cmdImm w), assembleWord_fields]
  rw [hrow, OpcodeRow.selects, beq_iff_eq, hhigh]
  constructor
  · intro heq
    exact ⟨by simpa using congrArg cmdGrp heq, by simpa using congrArg cmdFn heq⟩
  · rintro ⟨rfl, rfl⟩
    rfl

theorem opcodeRow_selects_encode (i : Instr) : (opcodeRow i).selects (encode i) = true := by
  rcases opcodeRow_cases i with hfixed | ⟨grp, fn, operation, imm, himm, rfl⟩
  · exact (fixedRow_selects_iff hfixed _).mpr rfl
  · obtain ⟨hword, -⟩ := himm imm
    rw [immediateRow_selects_iff himm, hword]
    exact ⟨cmdGrp_assembleWord grp fn imm, cmdFn_assembleWord grp fn imm⟩

/-- A row selects exactly the words of the instructions of that row (30_encoding R63). -/
theorem opcodeRow_selects_iff (i : Instr) (w : CmdWord) :
    (opcodeRow i).selects w = true ↔ ∃ j, encode j = w ∧ opcodeRow j = opcodeRow i := by
  constructor
  · intro h
    rcases opcodeRow_cases i with hfixed | ⟨grp, fn, operation, imm, himm, rfl⟩
    · exact ⟨i, ((fixedRow_selects_iff hfixed w).mp h).symm, rfl⟩
    · obtain ⟨rfl, rfl⟩ := (immediateRow_selects_iff himm imm w).mp h
      obtain ⟨-, hrow⟩ := himm imm
      obtain ⟨hword, hrow'⟩ := himm (cmdImm w)
      exact ⟨operation (cmdImm w), by rw [hword, assembleWord_fields], by rw [hrow, hrow']⟩
  · rintro ⟨j, rfl, hrow⟩
    rw [← hrow]
    exact opcodeRow_selects_encode j

/-! ### A reserved word at the command port -/

theorem step_idle_reserved {s : State} {why : Reserved} (hr : s.inp.rst = false) (hp : s.phase = .idle)
    (hc : s.inp.cmdValid = true) (hd : decode s.inp.cmd = .error why) : step s = .next (illegalCommand s) := by
  simp [step, hr, hp, hc, hd]

/-! ### The option a get answers with -/

theorem errorCode_ne_ok (e : OpError) : errorCode e ≠ 0 := by
  cases e <;> decide

/-- A get that has ended with `OK` has unpacked a byte, and drives its option on port `r` (43_bitfield_rmw R166). -/
theorem runGet_ok {f : Field} {s : State} (hv : (runGet f s).out.rspValid = true) (h0 : (runGet f s).out.status = 0) :
    ∃ b, unpack s.config.table b f = .ok (runGet f s).out.r := by
  unfold runGet at *
  rcases afterRead_get_cases f (requestRead (.get f) s) with ⟨-, h⟩ | ⟨a, -, -, h⟩ | ⟨a, -, -, h⟩ <;> rw [h] at hv h0 ⊢
  · simp at hv
  · exact absurd h0 (errorCode_ne_ok .busError)
  · refine ⟨a.rdata, ?_⟩
    rw [requestRead_config] at h0 ⊢
    cases hu : unpack s.config.table a.rdata f with
    | ok o => rfl
    | error e =>
      rw [hu] at h0
      exact absurd h0 (errorCode_ne_ok e)

/-! ### A field of one bit -/

/-- Inside a mask of one bit there are two values (42_bitfield_pack R130 (f)). -/
theorem eq_zero_or_mask_of_oneBitSet {m : Byte} (hm : oneBitSet m = true) {x : Byte} (hx : x &&& ~~~m = 0) :
    x = 0 ∨ x = m := by
  have hsub : x = x &&& m := by
    calc x = x &&& (m ||| ~~~m) := by rw [BitVec.or_not_self, BitVec.and_allOnes]
      _ = x &&& m := by rw [BitVec.and_or_distrib_left, hx]; exact BitVec.or_zero
  have hbit : ∃ i, m = BitVec.twoPow 8 i := by
    simp only [oneBitSet, List.contains_iff_mem, List.mem_cons, List.not_mem_nil, or_false] at hm
    rcases hm with rfl | rfl | rfl | rfl | rfl | rfl | rfl | rfl
    exacts [⟨0, rfl⟩, ⟨1, rfl⟩, ⟨2, rfl⟩, ⟨3, rfl⟩, ⟨4, rfl⟩, ⟨5, rfl⟩, ⟨6, rfl⟩, ⟨7, rfl⟩]
  obtain ⟨i, rfl⟩ := hbit
  rw [BitVec.and_twoPow] at hsub
  split at hsub
  · exact .inr hsub
  · exact .inl hsub

/-- `dec` gives back the option of every pattern (42_bitfield_pack R130 (d)). -/
theorem dec_lookup_of_enc_lookup {spec : FieldSpec} (h : spec.decInvertsEnc = true) {o pat : Byte}
    (hl : spec.enc.lookup o = some pat) : spec.dec.lookup pat = some o := by
  obtain ⟨before, after, henc, -⟩ := List.lookup_eq_some_iff.mp hl
  rw [FieldSpec.decInvertsEnc, List.all_eq_true] at h
  exact beq_iff_eq.mp (h (o, pat) (by simp [henc]))

/-- A field of one bit with two options names one of them, whatever the byte: their patterns differ, so they are the two
values inside the mask. -/
theorem dec_lookup_of_oneBit {spec : FieldSpec} {o p : Byte} (hspec : spec.admissible = true)
    (hbit : oneBitSet spec.mask = true) (hdef : spec.definedExactlyOn o p = true) (hop : o ≠ p) (b : Byte) :
    spec.dec.lookup (b &&& spec.mask) = some o ∨ spec.dec.lookup (b &&& spec.mask) = some p := by
  simp only [FieldSpec.admissible, Bool.and_eq_true] at hspec
  obtain ⟨⟨⟨-, hmask⟩, -⟩, hinv⟩ := hspec
  simp only [FieldSpec.definedExactlyOn, Bool.and_eq_true, Option.isSome_iff_exists] at hdef
  obtain ⟨⟨⟨x, hx⟩, ⟨y, hy⟩⟩, -⟩ := hdef
  have hdecx := dec_lookup_of_enc_lookup hinv hx
  have hdecy := dec_lookup_of_enc_lookup hinv hy
  have hxy : x ≠ y := by
    rintro rfl
    exact hop (Option.some.inj (hdecx.symm.trans hdecy))
  have hb : (b &&& spec.mask) &&& ~~~spec.mask = 0 := by simp [BitVec.and_assoc]
  have hbValues := eq_zero_or_mask_of_oneBitSet hbit hb
  have hxValues := eq_zero_or_mask_of_oneBitSet hbit (enc_lookup_in_mask hmask hx)
  have hyValues := eq_zero_or_mask_of_oneBitSet hbit (enc_lookup_in_mask hmask hy)
  have hpattern : b &&& spec.mask = x ∨ b &&& spec.mask = y := by grind
  rcases hpattern with h | h <;> rw [h]
  · exact .inl hdecx
  · exact .inr hdecy

/-- HOURMODE names 12 or 24 whatever the byte (43_bitfield_rmw R169). -/
theorem unpack_hourmode {t : FieldTable} (ht : t.admissible = true) (b : Byte) :
    unpack t b .hourmode = .ok 12 ∨ unpack t b .hourmode = .ok 24 := by
  simp only [FieldTable.admissible, FieldTable.singleBits, FieldTable.optionDomains, Bool.and_eq_true] at ht
  obtain ⟨⟨⟨⟨⟨⟨-, hspec⟩, -⟩, -⟩, -⟩, ⟨hbit, -⟩, -⟩, ⟨hdef, -⟩, -⟩ := ht
  exact (dec_lookup_of_oneBit hspec hbit hdef (by decide) b).imp unpack_of_some unpack_of_some

/-- `DECTIME 12` and `DECTIME 24` end with `OK` whatever the block holds (41_time_codec R105). -/
theorem exec_dectime_ok {mode : Byte} (hmode : mode = 12 ∨ mode = 24) (s : State) :
    ∃ t, exec (.dectime mode) s = .next t ∧ responded t 0 := by
  rcases hmode with rfl | rfl <;> exact ⟨_, rfl, responded_finish s _⟩

/-! ### The obligations -/

/-- Settles O11. -/
theorem decodeOfEncodeIsTheInstruction : Obligations.DecodeOfEncodeIsTheInstruction :=
  fun i _ => decode_encode i

/-- Settles O12. -/
theorem encodeOfDecodeIsTheWord : Obligations.EncodeOfDecodeIsTheWord :=
  fun _ _ h => decode_eq_ok_iff.mp h

/-- Settles O13: a row selects exactly the words of its instructions, and each word is that of one instruction at most. -/
theorem opcodeMapSelectsByMatchAndMask : Obligations.OpcodeMapSelectsByMatchAndMask := by
  have hselects : ∀ (w : CmdWord) (i : Instr), decode w = .ok i → (opcodeRow i).selects w = true := by
    intro w i h
    exact (opcodeRow_selects_iff i w).mpr ⟨i, decode_eq_ok_iff.mp h, rfl⟩
  refine ⟨hselects, fun w i hi => ?_, fun w i j hi hj => ?_, fun w hnone => ?_⟩
  · obtain ⟨j, hword, hrow⟩ := (opcodeRow_selects_iff i w).mp hi
    exact ⟨j, decode_eq_ok_iff.mpr hword, hrow⟩
  · obtain ⟨i', hword, hrow⟩ := (opcodeRow_selects_iff i w).mp hi
    obtain ⟨j', hword', hrow'⟩ := (opcodeRow_selects_iff j w).mp hj
    obtain rfl := encode_injective (hword.trans hword'.symm)
    exact hrow.symm.trans hrow'
  · cases hd : decode w with
    | ok i => simpa [hselects w i hd] using hnone i
    | error why => exact ⟨why, rfl⟩

/-- Settles O14, by the decoder's case split, the step of an idle block and the inverse of the encoder. -/
theorem reservedWordsEndWithIllegalCommand : Obligations.ReservedWordsEndWithIllegalCommand := by
  refine ⟨decode_eq_error_iff, fun s why hr hp hc hd => ?_, fun imm => ?_⟩
  · exact ⟨illegalCommand s, step_idle_reserved hr hp hc hd, respond_responds s 4 .nothing,
      ⟨⟨rfl, rfl, rfl⟩, fun _ => rfl, rfl, rfl⟩, fun a blk ts => step_idle_reserved hr hp hc hd⟩
  · exact ⟨decode_encode (.enctime imm), decode_encode (.dectime imm), fun f => ⟨decode_encode _, decode_encode _⟩⟩

/-- Settles O53: the option is one of HOURMODE, hence 12 or 24. -/
theorem hourModeReadFeedsTheTimeCodec : Obligations.HourModeReadFeedsTheTimeCodec := by
  intro s t s' htable ht hv h0
  obtain rfl := Host.Outcome.next.inj ((exec_getInstr .hourmode s).symm.trans ht)
  obtain ⟨b, hb⟩ := runGet_ok hv h0
  have hmode : (runGet .hourmode s).out.r = 12 ∨ (runGet .hourmode s).out.r = 24 := by
    simpa [hb] using unpack_hourmode htable b
  exact exec_dectime_ok hmode s'

/-- Settles O16: each word is the encoding of its instruction. -/
theorem workedEncodingsDecode : Obligations.WorkedEncodingsDecode :=
  ⟨decode_encode .byte2bcd, decode_encode (.dectime 24), decode_encode (.enctime 12), decode_encode (.packloadcap 1),
    decode_encode .unpackhourmode, decode_encode (.setdrive 2), decode_encode (.sethourmode 12),
    decode_encode .gethourmode⟩

/-- Settles O17. -/
theorem pseudoInstructionsAreTheWordsShown : Obligations.PseudoInstructionsAreTheWordsShown :=
  ⟨rfl, rfl, rfl, rfl, rfl, rfl, rfl, rfl, rfl, rfl, rfl, rfl⟩

end Sys2Proof.Machine

/-! ## Proofs: the BCD codec (spec 40_bcd)

First the two functions in arithmetic: the decoder and the valid bytes by quotient and remainder of 16, the encoder by
quotient and remainder of 10. The laws of the codec are then facts about digits. Then the two operations, which end at
once with what the functions give. -/
namespace Sys2Proof.Machine

/-! ### The decoder and the valid bytes, by nibbles -/

theorem lowNibble_toNat (c : Byte) : (c &&& 0x0F).toNat = c.toNat % 16 := by
  rw [BitVec.toNat_and]
  exact Nat.and_two_pow_sub_one_eq_mod c.toNat 4

theorem highNibble_toNat (c : Byte) : ((c >>> 4) &&& 0x0F).toNat = c.toNat / 16 := by
  rw [lowNibble_toNat, BitVec.toNat_ushiftRight, Nat.shiftRight_eq_div_pow]
  omega

/-- The formula of 40_bcd R90 in arithmetic. -/
theorem bcdToByte_eq (c : Byte) : bcdToByte c = c.toNat % 16 + 10 * (c.toNat / 16) := by
  rw [bcdToByte, lowNibble_toNat, highNibble_toNat]

theorem bcdToByte_le (c : Byte) : bcdToByte c ≤ 165 := by
  rw [bcdToByte_eq]
  omega

theorem validBcd_iff (c : Byte) : validBcd c = true ↔ c.toNat % 16 ≤ 9 ∧ c.toNat / 16 ≤ 9 := by
  rw [validBcd, lowNibble_toNat, highNibble_toNat, Bool.and_eq_true, decide_eq_true_eq, decide_eq_true_eq]

theorem bcdToByte_le_of_validBcd {c : Byte} (h : validBcd c = true) : bcdToByte c ≤ 99 := by
  obtain ⟨hlow, hhigh⟩ := (validBcd_iff c).mp h
  rw [bcdToByte_eq]
  omega

/-! ### The encoder, by digits -/

/-- The two nibbles the encoder joins do not overlap, so joining them is adding them (40_bcd R91). -/
theorem nibbles_toNat {hi lo : Nat} (hhi : hi < 16) (hlo : lo < 16) :
    ((BitVec.ofNat 8 hi <<< 4) ||| BitVec.ofNat 8 lo).toNat = 16 * hi + lo := by
  have hshift : (BitVec.ofNat 8 hi <<< 4).toNat = 2 ^ 4 * hi := by
    rw [BitVec.toNat_shiftLeft, BitVec.toNat_ofNat, Nat.shiftLeft_eq]
    omega
  have hlow : (BitVec.ofNat 8 lo).toNat = lo := by
    rw [BitVec.toNat_ofNat]
    omega
  rw [BitVec.toNat_or, hshift, hlow]
  exact (Nat.two_pow_add_eq_or_of_lt hlo hi).symm

/-- The encoder succeeds exactly below 100, and its byte has the tens digit and the ones digit as its nibbles. -/
theorem byteToBcd_eq_ok_iff {v : Nat} {c : Byte} :
    byteToBcd v = .ok c ↔ v < 100 ∧ c.toNat = 16 * (v / 10) + v % 10 := by
  by_cases hv : v < 100
  · have hdigits := nibbles_toNat (show v / 10 < 16 by omega) (show v % 10 < 16 by omega)
    rw [byteToBcd_of_lt hv, Except.ok.injEq, ← hdigits, BitVec.toNat_inj, eq_comm (a := c)]
    exact (and_iff_right hv).symm
  · simp [byteToBcd_of_ge (Nat.le_of_not_lt hv), hv]

theorem byteToBcd_ok_of_lt {v : Nat} (h : v < 100) :
    ∃ c, byteToBcd v = .ok c ∧ c.toNat = 16 * (v / 10) + v % 10 := by
  obtain ⟨-, hc⟩ := byteToBcd_eq_ok_iff.mp (byteToBcd_of_lt h)
  exact ⟨_, byteToBcd_of_lt h, hc⟩

/-! ### The two directions undo each other -/

/-- Decoding what the encoder gives returns the number, from a valid byte (40_bcd R94 (a)). -/
theorem validBcd_and_bcdToByte_of_byteToBcd {v : Nat} {c : Byte} (h : byteToBcd v = .ok c) :
    validBcd c = true ∧ bcdToByte c = v := by
  obtain ⟨hv, hc⟩ := byteToBcd_eq_ok_iff.mp h
  rw [validBcd_iff, bcdToByte_eq]
  omega

/-- Encoding what a valid byte decodes to returns the byte (40_bcd R94 (b)). -/
theorem byteToBcd_bcdToByte {c : Byte} (h : validBcd c = true) : byteToBcd (bcdToByte c) = .ok c := by
  obtain ⟨hlow, hhigh⟩ := (validBcd_iff c).mp h
  rw [byteToBcd_eq_ok_iff, bcdToByte_eq]
  omega

/-! ### The two operations -/

theorem exec_byte2bcd (s : State) :
    exec .byte2bcd s = .next (conclude s ((byteToBcd s.inp.a.toNat).map .byte)) := rfl

theorem exec_bcd2byte (s : State) :
    exec .bcd2byte s = .next (finish s (.byte (BitVec.ofNat 8 (bcdToByte s.inp.a)))) := rfl

theorem exec_byte2bcd_of_ok {s : State} {c : Byte} (h : byteToBcd s.inp.a.toNat = .ok c) :
    exec .byte2bcd s = .next (finish s (.byte c)) := by
  rw [exec_byte2bcd, h]
  rfl

theorem exec_byte2bcd_of_error {s : State} {e : OpError} (h : byteToBcd s.inp.a.toNat = .error e) :
    exec .byte2bcd s = .next (raise s e) := by
  rw [exec_byte2bcd, h]
  rfl

/-- A response touches nothing outside the block (10_state R15). -/
theorem pureFrame_respond (s : State) (code : BitVec 3) (res : Result) : pureFrame s (respond s code res) :=
  ⟨⟨rfl, rfl, rfl⟩, fun _ => rfl, rfl, rfl⟩

theorem responded_raise (s : State) (e : OpError) : responded (raise s e) (errorCode e) :=
  respond_responds s (errorCode e) .nothing

@[simp] theorem finish_byte_out_r (s : State) (b : Byte) : (finish s (.byte b)).out.r = b := rfl

/-! ### The obligations -/

/-- Settles O21: both directions are the same two digits, read in base 16 and in base 10. -/
theorem bcdCodecLaws : Obligations.BcdCodecLaws := by
  refine ⟨fun v hv => ?_, fun c => byteToBcd_bcdToByte, fun v w c hv hw => ?_, rfl, rfl, rfl, rfl⟩
  · obtain ⟨c, hc, -⟩ := byteToBcd_ok_of_lt hv
    exact ⟨c, hc, validBcd_and_bcdToByte_of_byteToBcd hc⟩
  · obtain ⟨-, hdecv⟩ := validBcd_and_bcdToByte_of_byteToBcd hv
    obtain ⟨-, hdecw⟩ := validBcd_and_bcdToByte_of_byteToBcd hw
    exact hdecv.symm.trans hdecw

/-- Settles O22: the number is at most 165, so port `r` holds it. -/
theorem bcd2byteDecodesEveryByte : Obligations.Bcd2byteDecodesEveryByte := by
  refine ⟨rfl, fun s => ⟨_, exec_bcd2byte s, responded_finish s _, ?_, pureFrame_respond s statusOk _⟩⟩
  have hfits : bcdToByte s.inp.a < 2 ^ 8 := Nat.lt_of_le_of_lt (bcdToByte_le s.inp.a) (by decide)
  rw [finish_byte_out_r, BitVec.toNat_ofNat, Nat.mod_eq_of_lt hfits, bcdToByte_eq]

/-- Settles O23, by whether the encoder takes port `a`. -/
theorem byte2bcdEncodesOrIsOutOfRange : Obligations.Byte2bcdEncodesOrIsOutOfRange := by
  refine ⟨rfl, fun s => ?_⟩
  by_cases ha : 100 ≤ s.inp.a.toNat
  · refine ⟨_, exec_byte2bcd_of_error (byteToBcd_of_ge ha), pureFrame_respond s _ _, ?_⟩
    rw [if_pos ha]
    exact responded_raise s .outOfRange
  · obtain ⟨c, hc, hdigits⟩ := byteToBcd_ok_of_lt (Nat.lt_of_not_le ha)
    refine ⟨_, exec_byte2bcd_of_ok hc, pureFrame_respond s _ _, ?_⟩
    rw [if_neg ha]
    exact ⟨responded_finish s _, hdigits⟩

/-- Settles O20. -/
theorem bcdToByteIsTheFormula : Obligations.BcdToByteIsTheFormula :=
  fun c => ⟨bcdToByte_eq c, bcdToByte_le c, bcdToByte_le_of_validBcd⟩

end Sys2Proof.Machine

/-! ## Proofs: the time codec (spec 41_time_codec)

In the order of the definitions: the hours byte, the Timestamp's ranges, the block `ENCTIME` forms, the Timestamp `DECTIME`
reads from it, the text, and the two operations. An hour is encoded by way of the hour a 12-hour clock shows (`clockHour`),
so the twelve-hour rule has two cases, before noon and from noon on. -/
namespace Sys2Proof.Machine

/-! ### Bit 5 of the hours byte -/

theorem and_pmBit (b : Byte) : b &&& pmBit = if b[5] then pmBit else 0#8 :=
  BitVec.and_twoPow b 5

theorem and_pmBit_eq_iff (b : Byte) : b &&& pmBit = pmBit ↔ b[5] = true := by
  rw [and_pmBit]
  cases b[5] <;> decide

theorem and_not_pmBit_of_clear {b : Byte} (hb : b[5] = false) : b &&& ~~~pmBit = b := by
  have hbit : b &&& pmBit = 0#8 := by rw [and_pmBit, hb]; rfl
  calc b &&& ~~~pmBit = (b &&& ~~~pmBit) ||| (b &&& pmBit) := by rw [hbit, BitVec.or_zero]
    _ = b := by rw [← BitVec.and_or_distrib_left, BitVec.or_comm, BitVec.or_not_self, BitVec.and_allOnes]

theorem or_pmBit_and_not_pmBit (b : Byte) : (b ||| pmBit) &&& ~~~pmBit = b &&& ~~~pmBit := by
  rw [BitVec.and_comm, BitVec.and_or_distrib_left, BitVec.not_and_self, BitVec.and_comm]
  exact BitVec.or_zero

theorem or_pmBit_bit (b : Byte) : (b ||| pmBit)[5] = true := by
  rw [BitVec.getElem_or]
  exact Bool.or_true _

/-- The BCD byte of an hour 0 to 12 has bit 5 clear. -/
theorem bit_clear_of_byteToBcd {v : Nat} (hv : v ≤ 12) {b : Byte} (h : byteToBcd v = .ok b) : b[5] = false := by
  obtain ⟨-, hb⟩ := byteToBcd_eq_ok_iff.mp h
  rw [BitVec.getElem_eq_testBit_toNat]
  exact Nat.testBit_lt_two_pow (by omega)

/-! ### Decoding an hour (41_time_codec R103) -/

/-- The three steps of mode 12 in one equation. -/
theorem decHour_h12 (b : Byte) :
    decHour b .h12 = (if bcdToByte (b &&& ~~~pmBit) = 12 then 0 else bcdToByte (b &&& ~~~pmBit)) +
      if b[5] then 12 else 0 := by
  simp only [decHour, and_pmBit_eq_iff]
  split <;> rfl

theorem bcdToByte_and_not_pmBit_le (b : Byte) : bcdToByte (b &&& ~~~pmBit) ≤ 145 := by
  have hmask : (b &&& ~~~pmBit).toNat ≤ 223 := (BitVec.toNat_and b _).trans_le Nat.and_le_right
  rw [bcdToByte_eq]
  omega

theorem decHour_h12_le (b : Byte) : decHour b .h12 ≤ 157 := by
  have hv := bcdToByte_and_not_pmBit_le b
  rw [decHour_h12]
  split <;> split <;> omega

theorem decHour_lt (b : Byte) (m : HourMode) : decHour b m < 2 ^ 8 := by
  cases m with
  | h12 => exact Nat.lt_of_le_of_lt (decHour_h12_le b) (by decide)
  | h24 => exact Nat.lt_of_le_of_lt (bcdToByte_le b) (by decide)

/-! ### Encoding an hour (41_time_codec R102) -/

/-- The hour a 12-hour clock shows. -/
def clockHour (h : Nat) : Nat :=
  if h % 12 = 0 then 12 else h % 12

theorem clockHour_le (h : Nat) : clockHour h ≤ 12 := by
  unfold clockHour
  split <;> omega

theorem clockHour_read (h : Nat) : (if clockHour h = 12 then 0 else clockHour h) = h % 12 := by
  unfold clockHour
  split <;> split <;> omega

theorem encHour_am {h : Nat} (hh : h < 12) : encHour h .h12 = byteToBcd (clockHour h) := by
  by_cases h0 : h = 0
  · subst h0
    rfl
  · have hclock : clockHour h = h := by rw [clockHour, if_neg (by omega), Nat.mod_eq_of_lt hh]
    rw [encHour, if_neg h0, if_pos (Nat.le_of_lt_succ hh), hclock]

theorem encHour_pm {h : Nat} (hlo : 12 ≤ h) (hhi : h < 24) :
    encHour h .h12 = (byteToBcd (clockHour h)).map (· ||| pmBit) := by
  by_cases h12 : h = 12
  · subst h12
    rfl
  · have hclock : clockHour h = h - 12 := by
      rw [clockHour, if_neg (by omega)]
      omega
    rw [encHour, if_neg (by omega), if_neg (by omega), if_neg h12, hclock]

/-- The condition of `validBlock` on the hours byte (41_time_codec R101). -/
def validHours (b : Byte) : HourMode → Bool
  | .h24 => validBcd b
  | .h12 => validBcd (b &&& ~~~pmBit)

theorem validBlock_eq (b : RegisterBlock) (m : HourMode) :
    validBlock b m = (validBcd b.hundredths && validBcd b.seconds && validBcd b.minutes && validBcd b.day &&
      validBcd b.weekday && validBcd b.month && validBcd b.year && validHours b.hours m) := by
  cases m <;> rfl

/-- An hour of the day has a valid hours byte in each mode, and the byte decodes to the hour (41_time_codec R107). -/
theorem encHour_ok_of_lt {h : Nat} (hh : h < 24) (m : HourMode) :
    ∃ b, encHour h m = .ok b ∧ validHours b m = true ∧ decHour b m = h := by
  cases m with
  | h24 =>
    obtain ⟨b, hb, -⟩ := byteToBcd_ok_of_lt (show h < 100 by omega)
    exact ⟨b, hb, validBcd_and_bcdToByte_of_byteToBcd hb⟩
  | h12 =>
    have hclock := clockHour_le h
    obtain ⟨b, hb, -⟩ := byteToBcd_ok_of_lt (show clockHour h < 100 by omega)
    obtain ⟨hvalid, hdec⟩ := validBcd_and_bcdToByte_of_byteToBcd hb
    have hclear := bit_clear_of_byteToBcd hclock hb
    have hmask := and_not_pmBit_of_clear hclear
    rcases Nat.lt_or_ge h 12 with ham | hpm
    · refine ⟨b, by rw [encHour_am ham, hb], by rwa [validHours, hmask], ?_⟩
      rw [decHour_h12, hmask, hdec, clockHour_read, hclear]
      exact Nat.mod_eq_of_lt ham
    · refine ⟨b ||| pmBit, by rw [encHour_pm hpm hh, hb]; rfl, by rwa [validHours, or_pmBit_and_not_pmBit, hmask], ?_⟩
      rw [decHour_h12, or_pmBit_and_not_pmBit, hmask, hdec, clockHour_read, or_pmBit_bit, if_pos rfl]
      omega

theorem valid_and_decHour_of_encHour {h : Nat} (hh : h < 24) {m : HourMode} {b : Byte} (he : encHour h m = .ok b) :
    validHours b m = true ∧ decHour b m = h := by
  obtain ⟨c, hc, hread⟩ := encHour_ok_of_lt hh m
  obtain rfl := Except.ok.inj (hc.symm.trans he)
  exact hread

/-! ### The mode and the ranges -/

theorem hourModeOf_ok {imm : Byte} (h : imm = 12 ∨ imm = 24) : ∃ m, hourModeOf imm = .ok m := by
  rcases h with rfl | rfl
  · exact ⟨.h12, rfl⟩
  · exact ⟨.h24, rfl⟩

theorem hourModeOf_ok_or_error (imm : Byte) :
    ((imm = 12 ∨ imm = 24) ∧ ∃ m, hourModeOf imm = .ok m) ∨
      (¬(imm = 12 ∨ imm = 24) ∧ hourModeOf imm = .error .invalidHourMode) := by
  by_cases h : imm = 12 ∨ imm = 24
  · exact .inl ⟨h, hourModeOf_ok h⟩
  · obtain ⟨h12, h24⟩ := not_or.mp h
    exact .inr ⟨h, by rw [hourModeOf, if_neg h12, if_neg h24]⟩

theorem not_mode_iff_toNat (imm : Byte) : ¬(imm = 12 ∨ imm = 24) ↔ imm.toNat ≠ 12 ∧ imm.toNat ≠ 24 := by
  rw [not_or, ← BitVec.toNat_inj, ← BitVec.toNat_inj]
  rfl

/-- Some field of the Timestamp is out of its range (41_time_codec R100); a day above 31 does not fit its port. -/
abbrev FieldOutOfRange (t : TsIn) : Prop :=
  t.year.toNat < 2000 ∨ 2099 < t.year.toNat ∨ t.month.toNat < 1 ∨ 12 < t.month.toNat ∨ t.day.toNat < 1 ∨
    6 < t.weekday.toNat ∨ 23 < t.hour.toNat ∨ 59 < t.minute.toNat ∨ 59 < t.second.toNat ∨ 99 < t.hundredth.toNat

theorem validTimestamp_iff (t : TsIn) : validTimestamp t = true ↔ ¬FieldOutOfRange t := by
  have hday := t.day.isLt
  simp only [validTimestamp, FieldOutOfRange, Bool.and_eq_true, decide_eq_true_eq]
  omega

theorem ranges_of_valid {t : TsIn} (h : validTimestamp t = true) :
    2000 ≤ t.year.toNat ∧ t.year.toNat ≤ 2099 ∧ t.month.toNat ≤ 12 ∧ t.day.toNat ≤ 31 ∧ t.weekday.toNat ≤ 6 ∧
      t.hour.toNat < 24 ∧ t.minute.toNat ≤ 59 ∧ t.second.toNat ≤ 59 ∧ t.hundredth.toNat ≤ 99 := by
  simp only [validTimestamp, Bool.and_eq_true, decide_eq_true_eq] at h
  omega

theorem hour_lt_of_valid {t : TsIn} (h : validTimestamp t = true) : t.hour.toNat < 24 := by
  obtain ⟨-, -, -, -, -, hhour, -⟩ := ranges_of_valid h
  exact hhour

/-! ### The two halves of the codec law of 40_bcd R94 (a) -/

theorem validBcd_of_byteToBcd {v : Nat} {c : Byte} (h : byteToBcd v = .ok c) : validBcd c = true := by
  obtain ⟨hvalid, -⟩ := validBcd_and_bcdToByte_of_byteToBcd h
  exact hvalid

theorem bcdToByte_of_byteToBcd {v : Nat} {c : Byte} (h : byteToBcd v = .ok c) : bcdToByte c = v := by
  obtain ⟨-, hdec⟩ := validBcd_and_bcdToByte_of_byteToBcd h
  exact hdec

/-! ### The block `ENCTIME` forms (41_time_codec R104) -/

/-- Each byte of the block is the code of its field of the Timestamp. -/
structure Encodes (t : TsIn) (m : HourMode) (b : RegisterBlock) : Prop where
  hundredths : byteToBcd t.hundredth.toNat = .ok b.hundredths
  seconds : byteToBcd t.second.toNat = .ok b.seconds
  minutes : byteToBcd t.minute.toNat = .ok b.minutes
  hours : encHour t.hour.toNat m = .ok b.hours
  day : byteToBcd t.day.toNat = .ok b.day
  weekday : byteToBcd t.weekday.toNat = .ok b.weekday
  month : byteToBcd t.month.toNat = .ok b.month
  year : byteToBcd (t.year.toNat - yearBase) = .ok b.year

section Encodes
variable {t : TsIn} {m : HourMode} {b : RegisterBlock}

theorem Encodes.encodeBlock (h : Encodes t m b) : encodeBlock t m = .ok b := by
  obtain ⟨h0, h1, h2, h3, h4, h5, h6, h7⟩ := h
  rw [Machine.encodeBlock, h0, h1, h2, h3, h4, h5, h6, h7]
  rfl

theorem exists_encodes (h : validTimestamp t = true) (m : HourMode) : ∃ b, Encodes t m b := by
  obtain ⟨hours, hh, -⟩ := encHour_ok_of_lt (hour_lt_of_valid h) m
  have hranges := ranges_of_valid h
  have code (v : Nat) (hv : v < 100) : ∃ c, byteToBcd v = .ok c := ⟨_, byteToBcd_of_lt hv⟩
  obtain ⟨hundredths, h0⟩ := code t.hundredth.toNat (by omega)
  obtain ⟨seconds, h1⟩ := code t.second.toNat (by omega)
  obtain ⟨minutes, h2⟩ := code t.minute.toNat (by omega)
  obtain ⟨day, h4⟩ := code t.day.toNat (by omega)
  obtain ⟨weekday, h5⟩ := code t.weekday.toNat (by omega)
  obtain ⟨month, h6⟩ := code t.month.toNat (by omega)
  obtain ⟨year, h7⟩ := code (t.year.toNat - yearBase) (by unfold yearBase; omega)
  exact ⟨⟨hundredths, seconds, minutes, hours, day, weekday, month, year⟩, h0, h1, h2, hh, h4, h5, h6, h7⟩

theorem Encodes.validBlock (h : Encodes t m b) (hh : t.hour.toNat < 24) : validBlock b m = true := by
  obtain ⟨hhours, -⟩ := valid_and_decHour_of_encHour hh h.hours
  simp only [validBlock_eq, Bool.and_eq_true, and_assoc]
  exact ⟨validBcd_of_byteToBcd h.hundredths, validBcd_of_byteToBcd h.seconds, validBcd_of_byteToBcd h.minutes,
    validBcd_of_byteToBcd h.day, validBcd_of_byteToBcd h.weekday, validBcd_of_byteToBcd h.month,
    validBcd_of_byteToBcd h.year, hhours⟩

end Encodes

/-! ### The Timestamp `DECTIME` reads (41_time_codec R105)

No formula's number is too large for its port. -/

theorem bcdToByte_fits (c : Byte) : (BitVec.ofNat 8 (bcdToByte c)).toNat = bcdToByte c := by
  rw [BitVec.toNat_ofNat, Nat.mod_eq_of_lt (Nat.lt_of_le_of_lt (bcdToByte_le c) (by decide))]

section DecodeBlock
variable (b : RegisterBlock) (m : HourMode)

@[simp] theorem decodeBlock_hundredth_toNat : (decodeBlock b m).hundredth.toNat = bcdToByte b.hundredths :=
  bcdToByte_fits b.hundredths

@[simp] theorem decodeBlock_second_toNat : (decodeBlock b m).second.toNat = bcdToByte b.seconds :=
  bcdToByte_fits b.seconds

@[simp] theorem decodeBlock_minute_toNat : (decodeBlock b m).minute.toNat = bcdToByte b.minutes :=
  bcdToByte_fits b.minutes

@[simp] theorem decodeBlock_hour_toNat : (decodeBlock b m).hour.toNat = decHour b.hours m := by
  rw [decodeBlock, BitVec.toNat_ofNat, Nat.mod_eq_of_lt (decHour_lt b.hours m)]

@[simp] theorem decodeBlock_day_toNat : (decodeBlock b m).day.toNat = bcdToByte b.day :=
  bcdToByte_fits b.day

@[simp] theorem decodeBlock_weekday_toNat : (decodeBlock b m).weekday.toNat = bcdToByte b.weekday :=
  bcdToByte_fits b.weekday

@[simp] theorem decodeBlock_month_toNat : (decodeBlock b m).month.toNat = bcdToByte b.month :=
  bcdToByte_fits b.month

@[simp] theorem decodeBlock_year_toNat : (decodeBlock b m).year.toNat = 2000 + bcdToByte b.year := by
  have hle := bcdToByte_le b.year
  rw [decodeBlock, BitVec.toNat_ofNat, yearBase]
  omega

end DecodeBlock

/-- The Timestamp result holds, field by field, the numbers of the Timestamp operand. -/
structure SameTime (o : TsOut) (t : TsIn) : Prop where
  year : o.year.toNat = t.year.toNat
  month : o.month.toNat = t.month.toNat
  day : o.day.toNat = t.day.toNat
  weekday : o.weekday.toNat = t.weekday.toNat
  hour : o.hour.toNat = t.hour.toNat
  minute : o.minute.toNat = t.minute.toNat
  second : o.second.toNat = t.second.toNat
  hundredth : o.hundredth.toNat = t.hundredth.toNat

/-- Decoding the block of a valid Timestamp in the same mode returns it (41_time_codec R110). -/
theorem Encodes.sameTime {t : TsIn} {m : HourMode} {b : RegisterBlock} (h : Encodes t m b)
    (hv : validTimestamp t = true) : SameTime (decodeBlock b m) t := by
  obtain ⟨-, hhour⟩ := valid_and_decHour_of_encHour (hour_lt_of_valid hv) h.hours
  obtain ⟨hyear, -⟩ := ranges_of_valid hv
  constructor
  case year =>
    rw [decodeBlock_year_toNat, bcdToByte_of_byteToBcd h.year]
    exact Nat.add_sub_of_le hyear
  case hour => rw [decodeBlock_hour_toNat, hhour]
  case month => rw [decodeBlock_month_toNat, bcdToByte_of_byteToBcd h.month]
  case day => rw [decodeBlock_day_toNat, bcdToByte_of_byteToBcd h.day]
  case weekday => rw [decodeBlock_weekday_toNat, bcdToByte_of_byteToBcd h.weekday]
  case minute => rw [decodeBlock_minute_toNat, bcdToByte_of_byteToBcd h.minutes]
  case second => rw [decodeBlock_second_toNat, bcdToByte_of_byteToBcd h.seconds]
  case hundredth => rw [decodeBlock_hundredth_toNat, bcdToByte_of_byteToBcd h.hundredths]

/-- A Timestamp result fixes the operand whose numbers it holds. -/
theorem SameTime.unique {o : TsOut} {t u : TsIn} (ht : SameTime o t) (hu : SameTime o u) : u = t := by
  have same {n x : Nat} {p q : BitVec n} (hp : x = p.toNat) (hq : x = q.toNat) : q = p :=
    BitVec.eq_of_toNat_eq (hq.symm.trans hp)
  rw [TsIn.mk.injEq]
  exact ⟨same ht.year hu.year, same ht.month hu.month, same ht.day hu.day, same ht.weekday hu.weekday,
    same ht.hour hu.hour, same ht.minute hu.minute, same ht.second hu.second, same ht.hundredth hu.hundredth⟩

/-! ### The text (41_time_codec R106) -/

theorem render_of_renderable {t : TsOut} (h : renderable t = true) : render t = some (packText (renderChars t)) :=
  if_pos h

theorem render_of_not_renderable {t : TsOut} (h : renderable t = false) : render t = none := by
  rw [render, h]
  rfl

theorem SameTime.renderable {o : TsOut} {t : TsIn} (h : SameTime o t) (hv : validTimestamp t = true) :
    renderable o = true := by
  obtain ⟨-, hmonth, hday, -, hhour, hminute, hsecond, hhundredth⟩ := h
  have hranges := ranges_of_valid hv
  simp only [Machine.renderable, Bool.and_eq_true, decide_eq_true_eq]
  omega

theorem hundredthDigits_of_ge {n : Nat} (h : 10 ≤ n) : hundredthDigits n = twoDigits n :=
  if_pos h

theorem hundredthDigits_of_lt {n : Nat} (h : n < 10) : hundredthDigits n = [digitChar n, 0x30] :=
  if_neg (Nat.not_le_of_lt h)

theorem hundredthDigits_eq_pair (n : Nat) : ∃ c d, hundredthDigits n = [c, d] := by
  rcases Nat.lt_or_ge n 10 with h | h
  · exact ⟨_, _, hundredthDigits_of_lt h⟩
  · exact ⟨_, _, hundredthDigits_of_ge h⟩

/-- The characters of the layout ahead of the hundredths. -/
def textHead (t : TsOut) : List Byte :=
  [digitChar (t.year.toNat / 1000), digitChar (t.year.toNat / 100), digitChar (t.year.toNat / 10),
    digitChar t.year.toNat, 0x2D, digitChar (t.month.toNat / 10), digitChar t.month.toNat, 0x2D,
    digitChar (t.day.toNat / 10), digitChar t.day.toNat, 0x54, digitChar (t.hour.toNat / 10), digitChar t.hour.toNat,
    0x3A, digitChar (t.minute.toNat / 10), digitChar t.minute.toNat, 0x3A, digitChar (t.second.toNat / 10),
    digitChar t.second.toNat, 0x2E]

theorem renderChars_eq (t : TsOut) : renderChars t = textHead t ++ (hundredthDigits t.hundredth.toNat ++ [0x5A]) := by
  have hthousands : t.year.toNat / 100 / 10 = t.year.toNat / 1000 := Nat.div_div_eq_div_mul _ 100 10
  simp only [renderChars, textHead, twoDigits, hthousands, List.cons_append, List.nil_append]

/-- A character of the text is the one the layout has at its place. -/
theorem textChar_renderChars {t : TsOut} {c d : Byte} (hpair : hundredthDigits t.hundredth.toNat = [c, d]) {k : Nat}
    {e : Byte} (h : (textHead t ++ [c, d, 0x5A])[k]? = some e) : textChar (packText (renderChars t)) k = e := by
  have hchars : renderChars t = textHead t ++ [c, d, 0x5A] := by
    rw [renderChars_eq, hpair]
    rfl
  obtain ⟨hk, he⟩ := List.getElem?_eq_some_iff.mp h
  rw [hchars, textChar_packText _ k hk hk, he]

theorem textChar_hundredths {t : TsOut} {c d : Byte} (h : hundredthDigits t.hundredth.toNat = [c, d]) :
    textChar (packText (renderChars t)) 20 = c ∧ textChar (packText (renderChars t)) 21 = d :=
  ⟨textChar_renderChars h rfl, textChar_renderChars h rfl⟩

/-! ### The two operations -/

theorem exec_enctime (imm : Byte) (s : State) :
    exec (.enctime imm) s = .next (conclude s ((encodeTime imm s.inp.tsIn).map .block)) := rfl

theorem exec_dectime (imm : Byte) (s : State) :
    exec (.dectime imm) s = .next (conclude s ((decodeTime imm s.inp.blkIn).map fun t => .time t (render t))) := rfl

section Operations
variable {imm : Byte} {m : HourMode} {s : State}

theorem exec_enctime_of_encodes {b : RegisterBlock} (hm : hourModeOf imm = .ok m)
    (hv : validTimestamp s.inp.tsIn = true) (h : Encodes s.inp.tsIn m b) :
    exec (.enctime imm) s = .next (finish s (.block (portOfBlock b))) := by
  rw [exec_enctime, encodeTime, hm]
  simp only [bind, Except.bind, hv, h.encodeBlock]
  rfl

theorem exec_enctime_of_invalid (hm : hourModeOf imm = .ok m) (hv : validTimestamp s.inp.tsIn = false) :
    exec (.enctime imm) s = .next (raise s .outOfRange) := by
  rw [exec_enctime, encodeTime, hm]
  simp only [bind, Except.bind, hv]
  rfl

theorem exec_enctime_of_badMode {e : OpError} (hm : hourModeOf imm = .error e) :
    exec (.enctime imm) s = .next (raise s e) := by
  rw [exec_enctime, encodeTime, hm]
  rfl

theorem exec_dectime_of_mode (hm : hourModeOf imm = .ok m) :
    exec (.dectime imm) s = .next (finish s (.time (decodeBlock (blockOfPort s.inp.blkIn) m)
      (render (decodeBlock (blockOfPort s.inp.blkIn) m)))) := by
  rw [exec_dectime, decodeTime, hm]
  rfl

theorem exec_dectime_of_badMode {e : OpError} (hm : hourModeOf imm = .error e) :
    exec (.dectime imm) s = .next (raise s e) := by
  rw [exec_dectime, decodeTime, hm]
  rfl

end Operations

@[simp] theorem finish_time_tsOut (s : State) (t : TsOut) (txt : Option TextPort) :
    (finish s (.time t txt)).out.tsOut = t :=
  driveResult_time_tsOut _ t txt

theorem finish_time_txtOut (s : State) (t : TsOut) {text : Option TextPort} {txt : TextPort} (h : text = some txt) :
    (finish s (.time t text)).out.txtOut = txt := by
  rw [h]
  rfl

/-! ### The obligations -/

/-- Settles O24. -/
theorem hourLaw : Obligations.HourLaw := by
  refine ⟨fun h m hh => ?_, 0x32, rfl, rfl, rfl⟩
  obtain ⟨b, hb, -, hdec⟩ := encHour_ok_of_lt hh m
  exact ⟨b, hb, hdec⟩

/-- Settles O25: the mask is that of bit 5, and what it leaves is at most 145. -/
theorem decHourFollowsTheThreeSteps : Obligations.DecHourFollowsTheThreeSteps :=
  ⟨fun b => ⟨rfl, decHour_h12 b, bcdToByte_le b, decHour_h12_le b⟩, rfl, rfl, rfl, rfl⟩

/-- Settles O26. -/
theorem enctimeEncodesEveryField : Obligations.EnctimeEncodesEveryField := by
  intro imm m s hm hv
  obtain ⟨b, hb⟩ := exists_encodes hv m
  refine ⟨_, exec_enctime_of_encodes hm hv hb, responded_finish s _, pureFrame_respond s statusOk _, ?_⟩
  have hbytes : blockOfPort (finish s (.block (portOfBlock b))).out.blkOut = b := blockOfPort_portOfBlock b
  have hvalid := hb.validBlock (hour_lt_of_valid hv)
  rw [← hbytes] at hb hvalid
  exact ⟨hb.hundredths, hb.seconds, hb.minutes, hb.hours, hb.day, hb.weekday, hb.month, hb.year, hvalid⟩

/-- Settles O27, by the mode and then by the ranges. -/
theorem enctimeErrorsInOrder : Obligations.EnctimeErrorsInOrder := by
  intro imm s
  rcases hourModeOf_ok_or_error imm with ⟨hmode, m, hm⟩ | ⟨hmode, hm⟩
  · rw [if_neg (mt (not_mode_iff_toNat imm).mpr (not_not.mpr hmode))]
    by_cases hrange : FieldOutOfRange s.inp.tsIn
    · have hv : validTimestamp s.inp.tsIn = false :=
        Bool.eq_false_of_not_eq_true fun h => (validTimestamp_iff _).mp h hrange
      refine ⟨_, exec_enctime_of_invalid hm hv, pureFrame_respond s _ _, ?_⟩
      rw [if_pos hrange]
      exact responded_raise s .outOfRange
    · have hv := (validTimestamp_iff _).mpr hrange
      obtain ⟨b, hb⟩ := exists_encodes hv m
      refine ⟨_, exec_enctime_of_encodes hm hv hb, pureFrame_respond s _ _, ?_⟩
      rw [if_neg hrange]
      exact responded_finish s _
  · refine ⟨_, exec_enctime_of_badMode hm, pureFrame_respond s _ _, ?_⟩
    rw [if_pos ((not_mode_iff_toNat imm).mp hmode)]
    exact responded_raise s .invalidHourMode

/-- Settles O28. -/
theorem dectimeDecodesEveryBlock : Obligations.DectimeDecodesEveryBlock := by
  intro imm m s hm
  refine ⟨_, exec_dectime_of_mode hm, responded_finish s _, pureFrame_respond s statusOk _, ?_⟩
  rw [finish_time_tsOut]
  exact ⟨decodeBlock_hundredth_toNat _ m, decodeBlock_second_toNat _ m, decodeBlock_minute_toNat _ m,
    decodeBlock_hour_toNat _ m, decodeBlock_day_toNat _ m, decodeBlock_weekday_toNat _ m, decodeBlock_month_toNat _ m,
    decodeBlock_year_toNat _ m, fun _ => finish_time_txtOut s _⟩

/-- Settles O29. -/
theorem dectimeFailsOnlyOnItsMode : Obligations.DectimeFailsOnlyOnItsMode := by
  intro imm s
  rcases hourModeOf_ok_or_error imm with ⟨hmode, m, hm⟩ | ⟨hmode, hm⟩
  · rw [if_pos hmode]
    exact ⟨_, exec_dectime_of_mode hm, pureFrame_respond s _ _, responded_finish s _⟩
  · rw [if_neg hmode]
    exact ⟨_, exec_dectime_of_badMode hm, pureFrame_respond s _ _, responded_raise s .invalidHourMode⟩

/-- Settles O30: each character stands at its place in the layout, whose length is the port's. -/
theorem renderedTextLayout : Obligations.RenderedTextLayout := by
  refine ⟨fun t ht => ⟨_, render_of_renderable ht, ?_⟩, fun t => render_of_not_renderable⟩
  obtain ⟨c, d, hpair⟩ := hundredthDigits_eq_pair t.hundredth.toNat
  have char {k : Nat} {e : Byte} (h : (textHead t ++ [c, d, 0x5A])[k]? = some e) := textChar_renderChars hpair h
  refine ⟨char rfl, char rfl, char rfl, char rfl, char rfl, char rfl, char rfl, char rfl, char rfl, char rfl, char rfl,
    char rfl, char rfl, char rfl, char rfl, char rfl, char rfl, char rfl, char rfl, char rfl, fun hge => ?_,
    fun hlt => ?_, char rfl⟩
  · exact textChar_hundredths (hundredthDigits_of_ge hge)
  · exact textChar_hundredths (hundredthDigits_of_lt hlt)

/-- Settles O31: a valid Timestamp is the only one with the numbers its block decodes to. -/
theorem timeRoundTrip : Obligations.TimeRoundTrip := by
  refine ⟨fun imm s himm hv => ?_, rfl, rfl, rfl, rfl⟩
  obtain ⟨m, hm⟩ := hourModeOf_ok himm
  obtain ⟨b, hb⟩ := exists_encodes hv m
  refine ⟨_, exec_enctime_of_encodes hm hv hb, responded_finish s _, fun s' hblk => ?_⟩
  have hread : blockOfPort s'.inp.blkIn = b := hblk ▸ blockOfPort_portOfBlock b
  have hdec := exec_dectime_of_mode (s := s') hm
  have hsame := hb.sameTime hv
  rw [hread] at hdec
  refine ⟨_, hdec, responded_finish s' _, ?_⟩
  rw [finish_time_tsOut, finish_time_txtOut s' _ (render_of_renderable (hsame.renderable hv))]
  refine ⟨hsame.year, hsame.month, hsame.day, hsame.weekday, hsame.hour, hsame.minute, hsame.second, hsame.hundredth,
    fun hlt => ?_, fun s'' hy hmo hd hw hh hmi hs hhu => ?_⟩
  · rw [← hsame.hundredth] at hlt ⊢
    exact textChar_hundredths (hundredthDigits_of_lt hlt)
  · have hts : s''.inp.tsIn = s.inp.tsIn :=
      hsame.unique ⟨hy.symm, hmo.symm, hd.symm, hw.symm, hh.symm, hmi.symm, hs.symm, hhu.symm⟩
    rw [← hts] at hv hb
    exact ⟨_, exec_enctime_of_encodes hm hv hb, responded_finish s'' _, rfl⟩

end Sys2Proof.Machine

/-! ## Proofs: the bitfield functions (spec 42_bitfield_pack)

First what an admissible table gives, per field and per pair of fields at one address. Then packing: its bits inside and
outside the mask, packing twice, and unpacking what was packed, which reads the bits inside its own mask alone. Then the
two families of operations, which end at once with what the functions give. -/
namespace Sys2Proof.Machine

/-! ### What an admissible table gives -/

/-- The checks of R130, those of one field alone taken field by field. -/
theorem tableAdmissible_iff (t : FieldTable) :
    t.admissible = true ↔ (∀ f, (fieldSpec t f).admissible = true) ∧ t.masksDisjoint = true ∧ t.singleBits = true ∧
      t.optionDomains = true := by
  simp only [FieldTable.admissible, Bool.and_eq_true]
  constructor
  · rintro ⟨⟨⟨⟨⟨⟨⟨hdrive, hloadcap⟩, hhourmode⟩, hhundredths⟩, hbatsw⟩, hdisjoint⟩, hbits⟩, hoptions⟩
    refine ⟨fun f => ?_, hdisjoint, hbits, hoptions⟩
    cases f
    exacts [hdrive, hloadcap, hhourmode, hhundredths, hbatsw]
  · rintro ⟨hspec, hdisjoint, hbits, hoptions⟩
    exact ⟨⟨⟨⟨⟨⟨⟨hspec .drive, hspec .loadcap⟩, hspec .hourmode⟩, hspec .hundredths⟩, hspec .batsw⟩, hdisjoint⟩, hbits⟩,
      hoptions⟩

/-- Only DRIVE, LOADCAP and HOURMODE share a register (20_memory R31). -/
theorem fields_at_one_address {f g : Field} : fieldAddr f = fieldAddr g → f ≠ g →
    (f = .drive ∧ g = .loadcap) ∨ (f = .drive ∧ g = .hourmode) ∨ (f = .loadcap ∧ g = .hourmode) ∨
      (f = .loadcap ∧ g = .drive) ∨ (f = .hourmode ∧ g = .drive) ∨ (f = .hourmode ∧ g = .loadcap) := by
  cases f <;> cases g <;> decide

section Admissible
variable {t : FieldTable} (ht : t.admissible = true)
include ht

theorem fieldSpec_admissible (f : Field) : (fieldSpec t f).admissible = true := by
  obtain ⟨hspec, -⟩ := (tableAdmissible_iff t).mp ht
  exact hspec f

/-- Under an admissible table an option's pattern lies inside its field's mask (R130 (b)). -/
theorem option_in_mask {f : Field} {o pat : Byte} (h : (fieldSpec t f).enc.lookup o = some pat) :
    pat &&& ~~~(fieldSpec t f).mask = 0 := by
  have hspec := fieldSpec_admissible ht f
  simp only [FieldSpec.admissible, Bool.and_eq_true] at hspec
  obtain ⟨⟨⟨-, hmask⟩, -⟩, -⟩ := hspec
  exact enc_lookup_in_mask hmask h

/-- Under an admissible table an option's pattern names the option (R130 (d)). -/
theorem option_of_pattern {f : Field} {o pat : Byte} (h : (fieldSpec t f).enc.lookup o = some pat) :
    (fieldSpec t f).dec.lookup pat = some o := by
  have hspec := fieldSpec_admissible ht f
  simp only [FieldSpec.admissible, Bool.and_eq_true] at hspec
  obtain ⟨-, hinv⟩ := hspec
  exact dec_lookup_of_enc_lookup hinv h

/-- Under an admissible table two fields at one address share no bit (R130 (e)). -/
theorem masks_disjoint {f g : Field} (haddr : fieldAddr f = fieldAddr g) (hne : f ≠ g) :
    (fieldSpec t f).mask &&& (fieldSpec t g).mask = 0 := by
  obtain ⟨-, hdisjoint, -⟩ := (tableAdmissible_iff t).mp ht
  simp only [FieldTable.masksDisjoint, Bool.and_eq_true, beq_iff_eq] at hdisjoint
  obtain ⟨⟨hdl, hdh⟩, hlh⟩ := hdisjoint
  rcases fields_at_one_address haddr hne with
    ⟨rfl, rfl⟩ | ⟨rfl, rfl⟩ | ⟨rfl, rfl⟩ | ⟨rfl, rfl⟩ | ⟨rfl, rfl⟩ | ⟨rfl, rfl⟩
  exacts [hdl, hdh, hlh, BitVec.and_comm _ _ ▸ hdl, BitVec.and_comm _ _ ▸ hdh, BitVec.and_comm _ _ ▸ hlh]

/-- Under an admissible table a field of one bit with two options names one of them at every byte (R130 (f), (g)). -/
theorem unpack_of_oneBit {f : Field} {o p : Byte} (hbit : oneBitSet (fieldSpec t f).mask = true)
    (hdef : (fieldSpec t f).definedExactlyOn o p = true) (hop : o ≠ p) (b : Byte) :
    unpack t b f = .ok o ∨ unpack t b f = .ok p :=
  (dec_lookup_of_oneBit (fieldSpec_admissible ht f) hbit hdef hop b).imp unpack_of_some unpack_of_some

end Admissible

/-! ### Packing -/

/-- A byte without a bit outside a mask is its own part inside the mask. -/
theorem and_eq_self_of_and_not {x m : Byte} (h : x &&& ~~~m = 0) : x &&& m = x := by
  calc x &&& m = (x &&& m) ||| (x &&& ~~~m) := by rw [h]; exact BitVec.or_zero.symm
    _ = x := by rw [← BitVec.and_or_distrib_left, BitVec.or_not_self, BitVec.and_allOnes]

section Pack
variable {t : FieldTable} {f g : Field} {pat : Byte} (b : Byte) (hpat : pat &&& ~~~(fieldSpec t f).mask = 0)
include hpat

/-- Preservation (R149 (a)). -/
theorem pack_and_not_mask : pack t b f pat &&& ~~~(fieldSpec t f).mask = b &&& ~~~(fieldSpec t f).mask :=
  pack_and_of_disjoint b hpat (BitVec.and_not_self _)

/-- Inside the mask the packed byte is the pattern, whatever was there (R131). -/
theorem pack_and_mask : pack t b f pat &&& (fieldSpec t f).mask = pat := by
  have hcleared : b &&& ~~~(fieldSpec t f).mask &&& (fieldSpec t f).mask = 0 := by
    rw [BitVec.and_assoc, BitVec.not_and_self]
    exact BitVec.and_zero
  rw [pack, BitVec.and_or_distrib_right, hcleared, and_eq_self_of_and_not hpat]
  exact BitVec.zero_or

/-- The last write to a field wins (R149 (e)). -/
theorem pack_pack (pat' : Byte) : pack t (pack t b f pat) f pat' = pack t b f pat' := by
  rw [pack, pack_and_not_mask b hpat, ← pack]

/-- Packing a field and then another that shares no bit with it clears both masks and sets both patterns. -/
theorem pack_pack_of_disjoint (hfg : (fieldSpec t f).mask &&& (fieldSpec t g).mask = 0) (pat' : Byte) :
    pack t (pack t b f pat) g pat' =
      (b &&& (~~~(fieldSpec t f).mask &&& ~~~(fieldSpec t g).mask)) ||| (pat ||| pat') := by
  have houtside : pat &&& (fieldSpec t g).mask = 0 := by
    rw [← and_eq_self_of_and_not hpat, BitVec.and_assoc, hfg]
    exact BitVec.and_zero
  have hkept : pat &&& ~~~(fieldSpec t g).mask = pat :=
    and_eq_self_of_and_not (by rw [BitVec.not_not, houtside])
  rw [pack, pack, BitVec.and_or_distrib_right, hkept, BitVec.and_assoc, BitVec.or_assoc]

/-- Commutation (R149 (f)). -/
theorem pack_comm {pat' : Byte} (hpat' : pat' &&& ~~~(fieldSpec t g).mask = 0)
    (hfg : (fieldSpec t f).mask &&& (fieldSpec t g).mask = 0) :
    pack t (pack t b f pat) g pat' = pack t (pack t b g pat') f pat := by
  have hgf : (fieldSpec t g).mask &&& (fieldSpec t f).mask = 0 := BitVec.and_comm _ _ ▸ hfg
  rw [pack_pack_of_disjoint b hpat hfg, pack_pack_of_disjoint b hpat' hgf, BitVec.or_comm pat,
    BitVec.and_comm (~~~(fieldSpec t f).mask)]

end Pack

/-- Unpacking reads the bits inside the field's mask alone (R132). -/
theorem unpack_congr {t : FieldTable} {f : Field} {b c : Byte}
    (h : b &&& (fieldSpec t f).mask = c &&& (fieldSpec t f).mask) : unpack t b f = unpack t c f := by
  rw [unpack, h, ← unpack]

/-! ### The two families of operations -/

theorem runPack_of_option {f : Field} {imm pat : Byte} {s : State}
    (h : (fieldSpec s.config.table f).enc.lookup imm = some pat) :
    runPack f imm s = finish s (.byte (pack s.config.table s.inp.a f pat)) := by
  rw [runPack, optionPattern_of_some h]
  rfl

theorem runPack_of_noOption {f : Field} {imm : Byte} {s : State}
    (h : (fieldSpec s.config.table f).enc.lookup imm = none) :
    runPack f imm s = raise s (if f = .hourmode then .invalidHourMode else .invalidOption) := by
  rw [runPack, optionPattern_of_none h]
  rfl

theorem runUnpack_of_option {f : Field} {o : Byte} {s : State}
    (h : (fieldSpec s.config.table f).dec.lookup (s.inp.a &&& (fieldSpec s.config.table f).mask) = some o) :
    runUnpack f s = finish s (.byte o) := by
  rw [runUnpack, unpack_of_some h]
  rfl

theorem runUnpack_of_noOption {f : Field} {s : State}
    (h : (fieldSpec s.config.table f).dec.lookup (s.inp.a &&& (fieldSpec s.config.table f).mask) = none) :
    runUnpack f s = raise s .invalidOption := by
  rw [runUnpack, unpack_of_none h]
  rfl

/-- The code of the error that a missing option raises (R133). -/
theorem responded_raise_badOption (f : Field) (s : State) :
    responded (raise s (if f = .hourmode then .invalidHourMode else .invalidOption)) (badOptionCode f) := by
  rw [badOptionCode, ← apply_ite errorCode]
  exact responded_raise s _

/-- An operation that ends at once touches nothing outside the block, whatever it comes to (10_state R15). -/
theorem pureFrame_conclude (s : State) (x : Except OpError Result) : pureFrame s (conclude s x) := by
  cases x with
  | ok res => exact pureFrame_respond s statusOk res
  | error e => exact pureFrame_respond s (errorCode e) .nothing

/-! ### The obligations -/

/-- Settles O33. -/
theorem packReplacesTheFieldBitsOnly : Obligations.PackReplacesTheFieldBitsOnly := by
  intro t f o pat old ht hpat
  have hin := option_in_mask ht hpat
  exact ⟨rfl, pack_and_not_mask old hin, pack_and_mask old hin⟩

/-- Settles O34: isolation and commutation because the masks of two fields at one address are disjoint, read-back because
`dec` inverts `enc`; idempotence is the last write with the same option. -/
theorem packLaws : Obligations.PackLaws := by
  intro t f g o p pf pf' pg b ht ho hp
  have hpf := option_in_mask ht ho
  refine ⟨pack_and_not_mask b hpf, fun haddr hne => ?_, ?_, pack_pack b hpf pf, pack_pack b hpf pf',
    fun q hq haddr hne => ?_⟩
  · exact unpack_congr (pack_and_of_disjoint b hpf (masks_disjoint ht haddr hne))
  · apply unpack_of_some
    rw [pack_and_mask b hpf]
    exact option_of_pattern ht ho
  · exact pack_comm b hpf (option_in_mask ht hq) (masks_disjoint ht haddr hne)

/-- Settles O35, by whether the immediate is an option of the field. -/
theorem packOperations : Obligations.PackOperations := by
  intro f imm s
  refine ⟨runPack f imm s, exec_packInstr imm f s, pureFrame_conclude s _, fun pat hpat => ?_, fun hnone => ?_⟩
  · rw [runPack_of_option hpat]
    exact ⟨responded_finish s _, rfl⟩
  · rw [runPack_of_noOption hnone]
    exact responded_raise_badOption f s

/-- Settles O36, by whether the field's bits name an option. -/
theorem unpackOperations : Obligations.UnpackOperations := by
  intro f s
  refine ⟨runUnpack f s, exec_unpackInstr f s, pureFrame_conclude s _, fun o ho => ?_, fun hnone => ?_⟩
  · rw [runUnpack_of_option ho]
    exact ⟨responded_finish s _, rfl⟩
  · rw [runUnpack_of_noOption hnone]
    exact responded_raise s .invalidOption

/-- Settles O37: two options of one bit are the two values of that bit. -/
theorem oneBitFieldsAlwaysNameAnOption : Obligations.OneBitFieldsAlwaysNameAnOption := by
  intro t b ht
  obtain ⟨-, -, hbits, hoptions⟩ := (tableAdmissible_iff t).mp ht
  simp only [FieldTable.singleBits, FieldTable.optionDomains, Bool.and_eq_true] at hbits hoptions
  obtain ⟨-, hhundredthsBit, hbatswBit⟩ := and_assoc.mp hbits
  obtain ⟨-, hhundredths, hbatsw⟩ := and_assoc.mp hoptions
  exact ⟨unpack_hourmode ht b, unpack_of_oneBit ht (f := .hundredths) hhundredthsBit hhundredths (by decide) b,
    unpack_of_oneBit ht (f := .batsw) hbatswBit hbatsw (by decide) b⟩

/-- Settles O32, check by check. -/
theorem defaultTableIsAdmissible : Obligations.DefaultTableIsAdmissible :=
  (tableAdmissible_iff defaultTable).mpr ⟨fun f => by cases f <;> decide, by decide, by decide, by decide⟩

end Sys2Proof.Machine

/-! ## Proofs: the bitfield operations on the bus (spec 43_bitfield_rmw)

First what an answered transaction leaves behind: the answers still to come, the registers, and the log. Then a set and a
get in one equation each: a set whose two transactions are answered ends with the status of its write, a get whose read is
answered ends with what that answer comes to. Either target is then only a source of those answers, and the laws of a set
followed by a get are those of packing and unpacking. -/
namespace Sys2Proof.Machine

/-! ### What an answered transaction leaves behind -/

/-- The oracle's answer to a transaction is used up. -/
theorem answers_settle_oracle {s : State} {a : BusAnswer} {rest : List BusAnswer} (ho : oracleWith (a :: rest) s) :
    (settle s a).target.answers = rest := by
  obtain ⟨hmodel, hanswers⟩ := ho
  rw [settle_target_answers_oracle a hmodel, hanswers, List.tail_cons]

section ReadAnswered
variable (op : BusOp) (s : State) (a : BusAnswer)

theorem settle_requestRead_sameRegisters : sameRegisters s (settle (requestRead op s) a) :=
  fun _ => by rw [State.readReg, settle_target_reg, regAfter_read a rfl, requestRead_target, State.readReg]

/-- The transaction seen is one read of the operation's field (20_memory R47). -/
theorem settle_requestRead_busLog :
    (settle (requestRead op s) a).busLog =
      s.busLog ++ [.read (fieldAddr (busOpField op)) (if a.err then none else some a.rdata)] := by
  rw [settle_busLog, ← requestRead_bus_addr op s]
  rfl

end ReadAnswered

section WriteAnswered
variable (f : Field) (pat x : Byte) (s : State) (a : BusAnswer)

theorem settle_writeRequested_sameRegistersBut :
    sameRegistersBut (fieldAddr f) s (settle (writeRequested f pat x s) a) :=
  fun c hc => (settle_readReg_ne _ a hc).trans (writeRequested_sameRegisters f pat x s c)

/-- The transactions seen are the read of `x` and the write of the packed byte, in this order (43_bitfield_rmw R160). -/
theorem settle_writeRequested_busLog :
    (settle (writeRequested f pat x s) a).busLog =
      s.busLog ++ [.read (fieldAddr f) (some x), .write (fieldAddr f) (pack s.config.table x f pat) (!a.err)] := by
  have hread : (writeRequested f pat x s).busLog = s.busLog ++ [.read (fieldAddr f) (some x)] :=
    settle_requestRead_busLog (.set f pat) s ⟨false, x⟩
  rw [settle_busLog, hread, List.append_assoc]
  rfl

theorem settle_writeRequested_answers_store (hs : storeTarget s) :
    (settle (writeRequested f pat x s) a).target.answers = s.target.answers :=
  (settle_target_answers_store (s := writeRequested f pat x s) a hs).trans
    (settle_target_answers_store (s := requestRead (.set f pat) s) ⟨false, x⟩ hs)

end WriteAnswered

/-! ### A set, by the answers to its two transactions -/

/-- The status of a set whose write has been answered (43_bitfield_rmw R160, R172). -/
def writeStatus (a : BusAnswer) : BitVec 3 :=
  if a.err then errorCode .busError else statusOk

theorem afterWrite_answered {s : State} {a : BusAnswer} (h : busAnswer s = some a) :
    afterWrite s = respond (settle s a) (writeStatus a) .nothing := by
  cases he : a.err with
  | true => rw [afterWrite_failed h he, raise, writeStatus, if_pos he]
  | false => rw [afterWrite_done h he, finish, writeStatus, if_neg (by simp [he])]

theorem exec_setInstr_of_runSet {f : Field} {imm : Byte} {s t : State} (h : runSet f imm s = t) :
    exec (setInstr imm f) s = .next t :=
  h ▸ exec_setInstr imm f s

/-- A set with a bad option takes its error before any bus access (43_bitfield_rmw R160). -/
theorem runSet_of_noOption {f : Field} {imm : Byte} {s : State}
    (h : (fieldSpec s.config.table f).enc.lookup imm = none) :
    runSet f imm s = raise s (if f = .hourmode then .invalidHourMode else .invalidOption) := by
  rw [runSet, optionPattern_of_none h]

section Set
variable {f : Field} {imm pat x : Byte} {s : State} (h : (fieldSpec s.config.table f).enc.lookup imm = some pat)
include h

theorem runSet_readFailed {a : BusAnswer} (ha : busAnswer (requestRead (.set f pat) s) = some a) (he : a.err = true) :
    runSet f imm s = raise (settle (requestRead (.set f pat) s) a) .busError := by
  rw [runSet_of_option h, afterRead_failed _ ha he]

theorem runSet_oracle {a : BusAnswer} {rest : List BusAnswer} (ho : oracleWith (⟨false, x⟩ :: a :: rest) s) :
    runSet f imm s = respond (settle (writeRequested f pat x s) a) (writeStatus a) .nothing := by
  have hread : busAnswer (requestRead (.set f pat) s) = some ⟨false, x⟩ :=
    busAnswer_oracleWith (s := requestRead (.set f pat) s) rfl ho
  have hwrite : busAnswer (writeRequested f pat x s) = some a :=
    busAnswer_oracleWith rfl (oracleWith_writeRequested f pat x s ho)
  rw [runSet_readDone h hread, afterWrite_answered hwrite]

/-- On the oracle target a set whose read succeeds answers with the status of its write; both answers are used up, both
transactions are seen, and no register but the field's is touched. -/
theorem exec_set_oracle {a : BusAnswer} {rest : List BusAnswer} (ho : oracleWith (⟨false, x⟩ :: a :: rest) s) :
    ∃ t, exec (setInstr imm f) s = .next t ∧ responded t (writeStatus a) ∧ sameSurroundings s t ∧
      sameRegistersBut (fieldAddr f) s t ∧ t.target.answers = rest ∧
      t.busLog = s.busLog ++
        [.read (fieldAddr f) (some x), .write (fieldAddr f) (pack s.config.table x f pat) (!a.err)] :=
  ⟨_, exec_setInstr_of_runSet (runSet_oracle h ho), respond_responds _ _ _, ⟨rfl, rfl, rfl⟩,
    settle_writeRequested_sameRegistersBut f pat x s a,
    answers_settle_oracle (oracleWith_writeRequested f pat x s ho), settle_writeRequested_busLog f pat x s a⟩

end Set

/-! ### A get, by the answer to its read -/

/-- What a get comes to when its read has been answered (43_bitfield_rmw R166, R172). -/
def getOutcome (t : FieldTable) (f : Field) (a : BusAnswer) : Except OpError Result :=
  if a.err then .error .busError else (unpack t a.rdata f).map .byte

/-- The only error of unpacking (42_bitfield_pack R132). -/
theorem unpack_error {t : FieldTable} {b : Byte} {f : Field} {e : OpError} (h : unpack t b f = .error e) :
    e = .invalidOption := by
  unfold unpack at h
  split at h
  · cases h
  · exact (Except.error.inj h).symm

section Get
variable {f : Field} {s : State} {a : BusAnswer}

theorem runGet_answered (ha : busAnswer (requestRead (.get f) s) = some a) :
    runGet f s = conclude (settle (requestRead (.get f) s) a) (getOutcome s.config.table f a) := by
  cases he : a.err with
  | true => rw [runGet, afterRead_failed _ ha he, getOutcome, if_pos he, conclude_error]
  | false => rw [runGet, afterRead_get_done f ha he, getOutcome, if_neg (by simp [he]), requestRead_config]

/-- A get whose read is answered changes no register, and its read is all the bus has seen. -/
theorem runGet_frame (ha : busAnswer (requestRead (.get f) s) = some a) :
    sameRegisters s (runGet f s) ∧
      (runGet f s).target.answers = (settle (requestRead (.get f) s) a).target.answers ∧
      (runGet f s).busLog = s.busLog ++ [.read (fieldAddr f) (if a.err then none else some a.rdata)] := by
  obtain ⟨-, hregs, hanswers, hlog⟩ :=
    pureFrame_conclude (settle (requestRead (.get f) s) a) (getOutcome s.config.table f a)
  rw [runGet_answered ha]
  exact ⟨fun c => (hregs c).trans (settle_requestRead_sameRegisters (.get f) s a c), hanswers,
    hlog.trans (settle_requestRead_busLog (.get f) s a)⟩

theorem runGet_readFailed (ha : busAnswer (requestRead (.get f) s) = some a) (he : a.err = true) :
    responded (runGet f s) 5 := by
  rw [runGet_answered ha, getOutcome, if_pos he]
  exact responded_raise _ .busError

/-- A get that has read a byte answers with the option the byte unpacks to, or with `InvalidOption`
(43_bitfield_rmw R166). -/
theorem runGet_readDone (ha : busAnswer (requestRead (.get f) s) = some a) (he : a.err = false) :
    (∀ o, unpack s.config.table a.rdata f = .ok o → responded (runGet f s) 0 ∧ (runGet f s).out.r = o) ∧
      ∀ e, unpack s.config.table a.rdata f = .error e → responded (runGet f s) 1 := by
  rw [runGet_answered ha, getOutcome, if_neg (by simp [he])]
  refine ⟨fun o ho => ?_, fun e h => ?_⟩
  · rw [ho]
    exact ⟨responded_finish _ (.byte o), finish_byte_out_r _ o⟩
  · rw [h, unpack_error h]
    exact responded_raise _ .invalidOption

theorem busAnswer_get_store (f : Field) (hs : storeTarget s) :
    busAnswer (requestRead (.get f) s) = some ⟨false, s.readReg (fieldAddr f)⟩ :=
  busAnswer_store_read rfl rfl hs

theorem busAnswer_get_oracle (f : Field) {rest : List BusAnswer} (ho : oracleWith (a :: rest) s) :
    busAnswer (requestRead (.get f) s) = some a :=
  busAnswer_oracleWith (s := requestRead (.get f) s) rfl ho

/-- Two states on the store target whose bytes unpack alike: a get of the field answers alike. -/
theorem runGet_store_congr {t : State} (hs : storeTarget s) (ht : storeTarget t)
    (h : unpack t.config.table (t.readReg (fieldAddr f)) f = unpack s.config.table (s.readReg (fieldAddr f)) f) :
    (runGet f t).out.rspValid = true ∧ (runGet f s).out.rspValid = true ∧
      (runGet f t).out.status = (runGet f s).out.status ∧
      ((runGet f s).out.status = 0 → (runGet f t).out.r = (runGet f s).out.r) := by
  obtain ⟨hsok, hserror⟩ := runGet_readDone (busAnswer_get_store f hs) rfl
  obtain ⟨htok, hterror⟩ := runGet_readDone (busAnswer_get_store f ht) rfl
  cases hx : unpack s.config.table (s.readReg (fieldAddr f)) f with
  | ok x =>
    obtain ⟨⟨-, -, hsv, hs0⟩, hsr⟩ := hsok x hx
    obtain ⟨⟨-, -, htv, ht0⟩, htr⟩ := htok x (h.trans hx)
    exact ⟨htv, hsv, ht0.trans hs0.symm, fun _ => htr.trans hsr.symm⟩
  | error e =>
    obtain ⟨-, -, hsv, hs1⟩ := hserror e hx
    obtain ⟨-, -, htv, ht1⟩ := hterror e (h.trans hx)
    exact ⟨htv, hsv, ht1.trans hs1.symm, fun h0 => absurd (hs1.symm.trans h0) (by decide)⟩

end Get

/-! ### The obligations -/

/-- Settles O39: the store target answers both transactions, so the write is acknowledged and read back. -/
theorem setOnTheStoreTarget : Obligations.SetOnTheStoreTarget := by
  intro f imm pat s hs hwf hpat
  refine ⟨_, exec_setInstr_of_runSet (runSet_store hs hpat), responded_finish _ _, ⟨rfl, rfl, rfl⟩, ?_,
    settle_writeRequested_sameRegistersBut f pat _ s _, settle_writeRequested_answers_store f pat _ s _ hs,
    settle_writeRequested_busLog f pat _ s _⟩
  exact settle_write_readReg (s := writeRequested f pat (s.readReg (fieldAddr f)) s) rfl rfl hwf

/-- Settles O40: the write succeeds. -/
theorem setOnTheOracleTarget : Obligations.SetOnTheOracleTarget :=
  fun _ _ _ _ _ _ _ ho hpat => exec_set_oracle hpat ho

/-- Settles O41. -/
theorem setWithABadOptionNeverTouchesTheBus : Obligations.SetWithABadOptionNeverTouchesTheBus :=
  fun f _ s hnone => ⟨_, exec_setInstr_of_runSet (runSet_of_noOption hnone), responded_raise_badOption f s,
    pureFrame_respond s _ .nothing⟩

/-- Settles O42: the failed read is the only transaction, and a read leaves every register. -/
theorem failedReadEndsSetWithoutWrite : Obligations.FailedReadEndsSetWithoutWrite := by
  intro f imm pat x rest s ho hpat
  have hread : busAnswer (requestRead (.set f pat) s) = some ⟨true, x⟩ :=
    busAnswer_oracleWith (s := requestRead (.set f pat) s) rfl ho
  exact ⟨_, exec_setInstr_of_runSet (runSet_readFailed hpat hread rfl), responded_raise _ .busError, ⟨rfl, rfl, rfl⟩,
    settle_requestRead_sameRegisters (.set f pat) s _, answers_settle_oracle (s := requestRead (.set f pat) s) ho,
    settle_requestRead_busLog (.set f pat) s _⟩

/-- Settles O43: the write fails. -/
theorem failedWriteEndsSetWithBusError : Obligations.FailedWriteEndsSetWithBusError :=
  fun _ _ _ _ _ _ _ ho hpat => exec_set_oracle hpat ho

/-- Settles O44: the store target answers the read with the register's byte. -/
theorem getOnTheStoreTarget : Obligations.GetOnTheStoreTarget := by
  intro f s hs
  have ha := busAnswer_get_store f hs
  obtain ⟨hregs, hanswers, hlog⟩ := runGet_frame ha
  exact ⟨_, exec_getInstr f s, sameSurroundings_exec (exec_getInstr f s), hregs,
    hanswers.trans (settle_target_answers_store (s := requestRead (.get f) s) _ hs), hlog, runGet_readDone ha rfl⟩

/-- Settles O45, by whether the answer is a failure. -/
theorem getOnTheOracleTarget : Obligations.GetOnTheOracleTarget := by
  intro f ans rest s ho
  have ha := busAnswer_get_oracle f ho
  obtain ⟨hregs, hanswers, hlog⟩ := runGet_frame ha
  refine ⟨_, exec_getInstr f s, sameSurroundings_exec (exec_getInstr f s), hregs,
    hanswers.trans (answers_settle_oracle (s := requestRead (.get f) s) ho), fun he => ?_, fun he => ?_⟩
  · exact ⟨runGet_readFailed ha he, by rw [hlog, if_pos he]⟩
  · exact ⟨by rw [hlog, if_neg (by simp [he])], runGet_readDone ha he⟩

/-- Settles O46: the set leaves the packed byte in the register, which unpacks to the option for the field and as before
for its neighbours. -/
theorem setThenGetOnTheStoreTarget : Obligations.SetThenGetOnTheStoreTarget := by
  intro f g o pat s hs hwf htable hpat
  obtain ⟨-, hneighbour, hself, -⟩ :=
    packLaws s.config.table f g o o pat pat 0 (s.readReg (fieldAddr f)) htable hpat hpat
  obtain ⟨t, ht, hresponded, ⟨-, hconfig, hmodel⟩, hbyte, -⟩ := setOnTheStoreTarget f o pat s hs hwf hpat
  have hstore : storeTarget t := hmodel.trans hs
  refine ⟨t, ht, hresponded, ?_, fun haddr hne => ?_⟩
  · obtain ⟨hok, -⟩ := runGet_readDone (busAnswer_get_store f hstore) rfl
    exact ⟨_, exec_getInstr f t, hok o (by rw [hconfig, hbyte, hself])⟩
  · refine ⟨_, _, exec_getInstr g t, exec_getInstr g s, runGet_store_congr hs hstore ?_⟩
    rw [hconfig, haddr, hbyte, hneighbour haddr.symm hne.symm]

end Sys2Proof.Machine

/-! ## Proofs: errors (spec 60_exceptions)

First how an error passes through the shared operations to the response: a valid response is `OK` or an error that the
operation's function raised. Then the table of R190 as a relation between an instruction and an error, and the one fact
the statements about status codes turn on: every instruction has a next state, and a response in it is `OK` or an error
the table lists for the instruction. Last, the immediates that name no option. -/
namespace Sys2Proof.Machine

/-! ### Responses by their errors -/

theorem errorCode_injective : Function.Injective errorCode := by
  intro d e
  cases d <;> cases e <;> simp [errorCode]

/-- A valid response in `t` is `OK` or an error of `P` (60_exceptions R190, R198). -/
def EndsOkOr (P : OpError → Prop) (t : State) : Prop :=
  t.out.rspValid = true → t.out.status = statusOk ∨ ∃ e, P e ∧ t.out.status = errorCode e

section EndsOkOr
variable {P : OpError → Prop} {s : State}

theorem EndsOkOr.of_status (h : EndsOkOr P s) (hv : s.out.rspValid = true) {e : OpError}
    (hs : s.out.status = errorCode e) : P e := by
  rcases h hv with h0 | ⟨e', he', hs'⟩
  · exact absurd (hs.symm.trans h0) (errorCode_ne_ok e)
  · exact errorCode_injective (hs'.symm.trans hs) ▸ he'

/-- Codes 6 and 7 are never produced (60_exceptions R190). -/
theorem EndsOkOr.status_le (h : EndsOkOr P s) (hv : s.out.rspValid = true) : s.out.status.toNat ≤ 5 := by
  rcases h hv with h0 | ⟨e, -, hs⟩
  · rw [h0]
    decide
  · rw [hs]
    exact errorCode_toNat_le e

theorem endsOkOr_of_noResponse (hv : s.out.rspValid = false) : EndsOkOr P s :=
  fun h => absurd (hv.symm.trans h) (by decide)

theorem endsOkOr_finish (res : Result) : EndsOkOr P (finish s res) := by
  obtain ⟨-, -, -, h0⟩ := responded_finish s res
  exact fun _ => .inl h0

theorem endsOkOr_raise {e : OpError} (he : P e) : EndsOkOr P (raise s e) := by
  obtain ⟨-, -, -, hs⟩ := responded_raise s e
  exact fun _ => .inr ⟨e, he, hs⟩

/-- An operation that ends at once ends with an error only where its function raises that error (R197). -/
theorem endsOkOr_conclude_map {α : Type} {x : Except OpError α} (g : α → Result) (hx : ∀ e, x = .error e → P e) :
    EndsOkOr P (conclude s (x.map g)) := by
  cases x with
  | ok v => exact endsOkOr_finish (g v)
  | error e => exact endsOkOr_raise (hx e rfl)

/-- `ENCTIME` ends with the error of its mode or of its range (41_time_codec R104, R108). -/
theorem exec_enctime_endsOkOr (imm : Byte) (hmode : P .invalidHourMode) (hrange : P .outOfRange) :
    ∃ t, exec (.enctime imm) s = .next t ∧ EndsOkOr P t := by
  rcases hourModeOf_ok_or_error imm with ⟨-, m, hm⟩ | ⟨-, hm⟩
  · cases hv : validTimestamp s.inp.tsIn with
    | true =>
      obtain ⟨b, hb⟩ := exists_encodes hv m
      exact ⟨_, exec_enctime_of_encodes hm hv hb, endsOkOr_finish _⟩
    | false => exact ⟨_, exec_enctime_of_invalid hm hv, endsOkOr_raise hrange⟩
  · exact ⟨_, exec_enctime_of_badMode hm, endsOkOr_raise hmode⟩

/-- `DECTIME` ends with the error of its mode (41_time_codec R105). -/
theorem exec_dectime_endsOkOr (imm : Byte) (hmode : P .invalidHourMode) :
    ∃ t, exec (.dectime imm) s = .next t ∧ EndsOkOr P t := by
  rcases hourModeOf_ok_or_error imm with ⟨-, m, hm⟩ | ⟨-, hm⟩
  · exact ⟨_, exec_dectime_of_mode hm, endsOkOr_finish _⟩
  · exact ⟨_, exec_dectime_of_badMode hm, endsOkOr_raise hmode⟩

theorem endsOkOr_afterWrite (hv : s.out.rspValid = false) (hbus : P .busError) : EndsOkOr P (afterWrite s) := by
  rcases afterWrite_cases s with ⟨-, h⟩ | ⟨a, -, -, h⟩ | ⟨a, -, -, h⟩ <;> rw [h]
  · exact endsOkOr_of_noResponse hv
  · exact endsOkOr_raise hbus
  · exact endsOkOr_finish .nothing

/-- A set ends with the error of its immediate or with `BusError` (43_bitfield_rmw R160, R172). -/
theorem endsOkOr_runSet {f : Field} {imm : Byte} (hbus : P .busError)
    (hopt : ∀ e, optionPattern s.config.table f imm = .error e → P e) : EndsOkOr P (runSet f imm s) := by
  rcases runSet_cases f imm s with ⟨e, he, h⟩ | ⟨pat, -, h⟩ <;> rw [h]
  · exact endsOkOr_raise (hopt e he)
  · rcases afterRead_set_cases f pat (requestRead (.set f pat) s) with ⟨-, h⟩ | ⟨a, -, -, h⟩ | ⟨a, -, -, h⟩ <;> rw [h]
    · exact endsOkOr_of_noResponse rfl
    · exact endsOkOr_raise hbus
    · exact endsOkOr_afterWrite rfl hbus

/-- A get ends with the error of unpacking the byte it read or with `BusError` (43_bitfield_rmw R166, R172). -/
theorem endsOkOr_runGet {f : Field} (hbus : P .busError)
    (hunpack : ∀ b e, unpack s.config.table b f = .error e → P e) : EndsOkOr P (runGet f s) := by
  unfold runGet
  rcases afterRead_get_cases f (requestRead (.get f) s) with ⟨-, h⟩ | ⟨a, -, -, h⟩ | ⟨a, -, -, h⟩ <;> rw [h]
  · exact endsOkOr_of_noResponse rfl
  · exact endsOkOr_raise hbus
  · exact endsOkOr_conclude_map .byte (hunpack a.rdata)

end EndsOkOr

/-! ### The table of R190 -/

theorem byteToBcd_error {v : Nat} {e : OpError} (h : byteToBcd v = .error e) : e = .outOfRange := by
  unfold byteToBcd at h
  split at h
  · cases h
  · exact (Except.error.inj h).symm

/-- `OptionPattern` raises its field's error exactly where `enc` has no entry for the immediate
(42_bitfield_pack R133). -/
theorem optionPattern_eq_error_iff {t : FieldTable} {f : Field} {imm : Byte} {e : OpError} :
    optionPattern t f imm = .error e ↔
      (fieldSpec t f).enc.lookup imm = none ∧ e = if f = .hourmode then .invalidHourMode else .invalidOption := by
  cases hl : (fieldSpec t f).enc.lookup imm with
  | some pat => simp [optionPattern_of_some hl]
  | none => simp [optionPattern_of_none hl, eq_comm]

/-- The instructions listed for an error (60_exceptions R190 to R195). Unpacking raises `InvalidOption` only for a field
with a byte that names no option in the table. -/
def ListedFor (t : FieldTable) (i : Instr) : OpError → Prop
  | .invalidOption =>
    (∃ imm f, f ≠ .hourmode ∧ (i = packInstr imm f ∨ i = setInstr imm f)) ∨
      ∃ f, (∃ b, unpack t b f = .error .invalidOption) ∧ (i = unpackInstr f ∨ i = getInstr f)
  | .invalidHourMode => ∃ imm, i = .enctime imm ∨ i = .dectime imm ∨ i = .packhourmode imm ∨ i = .sethourmode imm
  | .outOfRange => i = .byte2bcd ∨ ∃ imm, i = .enctime imm
  | .illegalCommand => False
  | .busError => ∃ imm f, i = setInstr imm f ∨ i = getInstr f

theorem listedFor_of_optionPattern {t : FieldTable} {i : Instr} {imm : Byte} {f : Field}
    (hi : i = packInstr imm f ∨ i = setInstr imm f) {e : OpError} (h : optionPattern t f imm = .error e) :
    ListedFor t i e := by
  obtain ⟨-, rfl⟩ := optionPattern_eq_error_iff.mp h
  split
  next hf =>
    subst hf
    exact ⟨imm, .inr (.inr hi)⟩
  next hf => exact .inl ⟨imm, f, hf, hi⟩

theorem listedFor_of_unpack {t : FieldTable} {i : Instr} {f : Field} (hi : i = unpackInstr f ∨ i = getInstr f)
    {b : Byte} {e : OpError} (h : unpack t b f = .error e) : ListedFor t i e := by
  obtain rfl := unpack_error h
  exact .inr ⟨f, ⟨b, h⟩, hi⟩

/-- Under an admissible table only DRIVE and LOADCAP can have a byte that names no option: the others are single bits
(42_bitfield_pack section 4). -/
theorem drive_or_loadcap_of_unpack_error {t : FieldTable} (ht : t.admissible = true) {b : Byte} {f : Field}
    {e : OpError} (h : unpack t b f = .error e) : f = .drive ∨ f = .loadcap := by
  obtain ⟨hhourmode, hhundredths, hbatsw⟩ := oneBitFieldsAlwaysNameAnOption t b ht
  cases f with
  | drive => exact .inl rfl
  | loadcap => exact .inr rfl
  | hourmode => simp [h] at hhourmode
  | hundredths => simp [h] at hhundredths
  | batsw => simp [h] at hbatsw

/-- A case split over the families of instructions, with the field as an operand of the last four (30_encoding R61,
R62). -/
theorem instr_familyCases {motive : Instr → Prop} (byte2bcd : motive .byte2bcd) (bcd2byte : motive .bcd2byte)
    (enctime : ∀ imm, motive (.enctime imm)) (dectime : ∀ imm, motive (.dectime imm))
    (pack : ∀ imm f, motive (packInstr imm f)) (unpack : ∀ f, motive (unpackInstr f))
    (set : ∀ imm f, motive (setInstr imm f)) (get : ∀ f, motive (getInstr f)) : ∀ i, motive i
  | .byte2bcd => byte2bcd
  | .bcd2byte => bcd2byte
  | .enctime imm => enctime imm
  | .dectime imm => dectime imm
  | .packdrive imm => pack imm .drive
  | .packloadcap imm => pack imm .loadcap
  | .packhourmode imm => pack imm .hourmode
  | .pack100th imm => pack imm .hundredths
  | .packbatsw imm => pack imm .batsw
  | .unpackdrive => unpack .drive
  | .unpackloadcap => unpack .loadcap
  | .unpackhourmode => unpack .hourmode
  | .unpack100th => unpack .hundredths
  | .unpackbatsw => unpack .batsw
  | .setdrive imm => set imm .drive
  | .setloadcap imm => set imm .loadcap
  | .sethourmode imm => set imm .hourmode
  | .set100th imm => set imm .hundredths
  | .setbatsw imm => set imm .batsw
  | .getdrive => get .drive
  | .getloadcap => get .loadcap
  | .gethourmode => get .hourmode
  | .get100th => get .hundredths
  | .getbatsw => get .batsw

/-- Whatever the table, every instruction has a next state, and where it responds there it ends with `OK` or an error
listed for it (60_exceptions R190, R198). -/
theorem exec_endsOkOr (i : Instr) (s : State) :
    ∃ t, exec i s = .next t ∧ EndsOkOr (ListedFor s.config.table i) t := by
  induction i using instr_familyCases with
  | byte2bcd => exact ⟨_, exec_byte2bcd s, endsOkOr_conclude_map .byte fun e he => byteToBcd_error he ▸ .inl rfl⟩
  | bcd2byte => exact ⟨_, exec_bcd2byte s, endsOkOr_finish _⟩
  | enctime imm => exact exec_enctime_endsOkOr imm ⟨imm, .inl rfl⟩ (.inr ⟨imm, rfl⟩)
  | dectime imm => exact exec_dectime_endsOkOr imm ⟨imm, .inr (.inl rfl)⟩
  | pack imm f =>
    exact ⟨_, exec_packInstr imm f s,
      endsOkOr_conclude_map _ fun e he => listedFor_of_optionPattern (.inl rfl) he⟩
  | unpack f =>
    exact ⟨_, exec_unpackInstr f s, endsOkOr_conclude_map .byte fun e he => listedFor_of_unpack (.inl rfl) he⟩
  | set imm f =>
    exact ⟨_, exec_setInstr imm f s,
      endsOkOr_runSet ⟨imm, f, .inl rfl⟩ fun e he => listedFor_of_optionPattern (.inr rfl) he⟩
  | get f =>
    exact ⟨_, exec_getInstr f s,
      endsOkOr_runGet ⟨0, f, .inr rfl⟩ fun b e he => listedFor_of_unpack (.inr rfl) he⟩

theorem endsOkOr_of_exec {i : Instr} {s t : State} (h : exec i s = .next t) :
    EndsOkOr (ListedFor s.config.table i) t := by
  obtain ⟨u, hu, hends⟩ := exec_endsOkOr i s
  obtain rfl := Host.Outcome.next.inj (hu.symm.trans h)
  exact hends

/-! ### The immediates that name no option -/

theorem optionPattern_rejects_iff (t : FieldTable) (f : Field) (imm : Byte) :
    optionPattern t f imm = .error (if f = .hourmode then .invalidHourMode else .invalidOption) ↔
      (fieldSpec t f).enc.lookup imm = none := by
  rw [optionPattern_eq_error_iff, and_iff_left rfl]

/-- A field with exactly two options (42_bitfield_pack R130 (g)). -/
theorem enc_lookup_eq_none_iff {spec : FieldSpec} {o p : Byte} (h : spec.definedExactlyOn o p = true) (imm : Byte) :
    spec.enc.lookup imm = none ↔ imm ≠ o ∧ imm ≠ p := by
  simp only [FieldSpec.definedExactlyOn, Bool.and_eq_true] at h
  obtain ⟨⟨ho, hp⟩, honly⟩ := h
  constructor
  · intro hnone
    constructor <;> rintro rfl
    · simp [hnone] at ho
    · simp [hnone] at hp
  · rintro ⟨hno, hnp⟩
    rw [List.lookup_eq_none_iff]
    intro entry hentry
    have hkey := List.all_eq_true.mp honly entry hentry
    simp only [Bool.or_eq_true, beq_iff_eq] at hkey
    rcases hkey with hkey | hkey <;> simp [hkey, hno, hnp]

theorem enc_lookup_eq_none_iff_two_le {spec : FieldSpec} (h : spec.definedExactlyOn 0 1 = true) (imm : Byte) :
    spec.enc.lookup imm = none ↔ 2 ≤ imm.toNat := by
  rw [enc_lookup_eq_none_iff h]
  bv_omega

theorem defaultTable_lookup_eq_none_iff {f : Field} (hf : f = .drive ∨ f = .loadcap) (imm : Byte) :
    (fieldSpec defaultTable f).enc.lookup imm = none ↔ 3 ≤ imm.toNat := by
  have hkeys : (fieldSpec defaultTable f).enc.lookup imm = none ↔ imm ≠ 0 ∧ imm ≠ 1 ∧ imm ≠ 2 := by
    rcases hf with rfl | rfl <;> simp [fieldSpec, defaultTable, List.lookup_eq_none_iff]
  rw [hkeys]
  bv_omega

/-! ### The obligations -/

/-- Settles O15: no instruction lists `IllegalCommand`, and a reserved word ends with it. -/
theorem illegalCommandExactlyForReservedWords : Obligations.IllegalCommandExactlyForReservedWords := by
  intro s t hr hp hc ht
  constructor
  · rintro ⟨hv, h4⟩
    cases hd : decode s.inp.cmd with
    | error why => exact ⟨why, rfl⟩
    | ok i =>
      rw [step_idle_offer hr hp hc hd] at ht
      exact ((endsOkOr_of_exec ht).of_status hv (e := .illegalCommand) h4).elim
  · rintro ⟨why, hd⟩
    obtain rfl := Host.Outcome.next.inj ((step_idle_reserved hr hp hc hd).symm.trans ht)
    obtain ⟨-, -, hv, h4⟩ := responded_raise s .illegalCommand
    exact ⟨hv, h4⟩

/-- Settles O18: the errors listed for an instruction are those of the statement, once an admissible table leaves a gap
to DRIVE and LOADCAP alone. -/
theorem errorCodesOnlyFromTheirOperations : Obligations.ErrorCodesOnlyFromTheirOperations := by
  intro i s t htable ht hv
  have hends := endsOkOr_of_exec ht
  refine ⟨fun h1 => ?_, hends.of_status hv (e := .invalidHourMode), hends.of_status hv (e := .outOfRange),
    hends.of_status hv (e := .busError), hends.status_le hv⟩
  refine (hends.of_status hv (e := .invalidOption) h1).imp_right ?_
  rintro ⟨f, ⟨b, hb⟩, hi⟩
  exact ⟨f, drive_or_loadcap_of_unpack_error htable hb, hi⟩

/-- Settles O38: an immediate is rejected where the field's `enc` has no entry for it. -/
theorem immediatesThatNameNoOption : Obligations.ImmediatesThatNameNoOption := by
  refine ⟨fun t imm ht => ?_, fun imm => ?_⟩
  · obtain ⟨-, -, -, hoptions⟩ := (tableAdmissible_iff t).mp ht
    simp only [FieldTable.optionDomains, Bool.and_eq_true] at hoptions
    obtain ⟨⟨hhourmode, hhundredths⟩, hbatsw⟩ := hoptions
    exact ⟨(optionPattern_rejects_iff t .hourmode imm).trans (enc_lookup_eq_none_iff hhourmode imm),
      (optionPattern_rejects_iff t .hundredths imm).trans (enc_lookup_eq_none_iff_two_le hhundredths imm),
      (optionPattern_rejects_iff t .batsw imm).trans (enc_lookup_eq_none_iff_two_le hbatsw imm)⟩
  · exact ⟨(optionPattern_rejects_iff defaultTable .drive imm).trans (defaultTable_lookup_eq_none_iff (.inl rfl) imm),
      (optionPattern_rejects_iff defaultTable .loadcap imm).trans (defaultTable_lookup_eq_none_iff (.inr rfl) imm)⟩

/-- Settles O5, by the branches of the step. -/
theorem everyStateHasANextState : Obligations.EveryStateHasANextState := by
  intro s
  rcases step_cases s with ⟨-, h⟩ | ⟨-, -, -, h⟩ | ⟨-, -, -, ⟨i, -, h⟩ | ⟨why, -, h⟩⟩ | ⟨-, -, h⟩
  · exact ⟨resetBlock s, h⟩
  · exact ⟨s, h⟩
  · obtain ⟨t, ht, -⟩ := exec_endsOkOr i s
    exact ⟨t, h.trans ht⟩
  · exact ⟨illegalCommand s, h⟩
  · exact ⟨resume s, h⟩

end Sys2Proof.Machine

/-! ## Proofs: reset and hazards (spec 70_reset_and_hazards)

First what a step with `rst` 1 comes to, on the ports and on the chip's registers. Then an operation in flight that is
not answered: a requested read leaves everything outside the block alone, and waiting changes nothing. Last what a
register reads after a list of writes by the requester: the byte of the last write to it. -/
namespace Sys2Proof.Machine

/-! ### Held in reset -/

theorem step_rst {s : State} (hr : s.inp.rst = true) : step s = .next (resetBlock s) := by
  simp [step, hr]

/-- What a block held in reset drives, whatever it was doing (70_reset_and_hazards R231). -/
theorem resetBlock_quiet (s : State) :
    cmdReady (resetBlock s) = true ∧ (resetBlock s).out.rspValid = false ∧ (resetBlock s).bus.req = false :=
  ⟨rfl, rfl, rfl⟩

/-- No write on the bus: reset leaves every register of the chip alone (70_reset_and_hazards R232). -/
theorem resetBlock_sameRegisters {s : State} (hw : writeInFlight s = false) : sameRegisters s (resetBlock s) :=
  fun _ => by simp [State.readReg, resetBlock, hw]

/-- Whatever was on the bus, reset reaches no register but the addressed one (70_reset_and_hazards R232). -/
theorem resetBlock_sameRegistersBut (s : State) : sameRegistersBut s.bus.addr s (resetBlock s) := by
  intro c hc
  cases hw : writeInFlight s with
  | false => exact resetBlock_sameRegisters hw c
  | true => simpa [State.readReg, resetBlock, hw] using memRead_memWrite_ne s.target.reg _ hc

/-! ### Waiting for an answer -/

/-- A requested read has done nothing outside the block yet. -/
theorem pureFrame_requestRead (op : BusOp) (s : State) : pureFrame s (requestRead op s) :=
  ⟨⟨rfl, rfl, rfl⟩, fun _ => rfl, rfl, rfl⟩

/-- A bus operation right after its read is requested: in flight, with the read of its field on the bus and no response
(10_state R16, 20_memory R40). -/
theorem requestRead_waits (op : BusOp) (s : State) :
    (requestRead op s).phase = .readPending op ∧ cmdReady (requestRead op s) = false ∧
      (requestRead op s).bus.req = true ∧ (requestRead op s).bus.we = false ∧
      (requestRead op s).bus.addr = fieldAddr (busOpField op) ∧ (requestRead op s).out.rspValid = false ∧
      pureFrame s (requestRead op s) :=
  ⟨rfl, by simp [cmdReady], rfl, rfl, requestRead_bus_addr op s, rfl, pureFrame_requestRead op s⟩

/-- An operation whose requested transaction is not answered stays exactly as it is (70_reset_and_hazards R241). -/
theorem resume_unanswered {s : State} (hreq : s.bus.req = true) (ha : busAnswer s = none) : resume s = s := by
  cases hp : s.phase with
  | idle => simp [resume, hp]
  | readPending op => rw [resume_readPending hp, if_pos hreq, afterRead_waiting op ha]
  | writePending f pat => rw [resume_writePending hp, if_pos hreq, afterWrite_waiting ha]

/-! ### The requester's writes -/

theorem otherWrite_readReg_same {s : State} (a : Addr) (v : Byte) (hwf : Memory.wf s.target.reg = true) :
    (otherWrite a v s).readReg a = v :=
  memRead_memWrite_same a v hwf

theorem otherWrites_append_singleton (ws : List (Addr × Byte)) (w : Addr × Byte) (s : State) :
    otherWrites (ws ++ [w]) s = otherWrite w.1 w.2 (otherWrites ws s) := by
  simp [otherWrites]

theorem otherWrites_keeps_wf (ws : List (Addr × Byte)) {s : State} (hwf : Memory.wf s.target.reg = true) :
    Memory.wf (otherWrites ws s).target.reg = true := by
  induction ws using List.reverseRecOn with
  | nil => exact hwf
  | append_singleton ws w ih =>
    rw [otherWrites_append_singleton]
    exact otherWrite_keeps_wf w.1 w.2 _ ih

/-- After a list of writes a register reads as the last byte written to it, or as before where there is none. -/
theorem otherWrites_readReg (ws : List (Addr × Byte)) {s : State} (hwf : Memory.wf s.target.reg = true) (a : Addr) :
    (otherWrites ws s).readReg a = (ws.reverse.lookup a).getD (s.readReg a) := by
  induction ws using List.reverseRecOn with
  | nil => rfl
  | append_singleton ws w ih =>
    obtain ⟨c, v⟩ := w
    rw [otherWrites_append_singleton, List.reverse_concat]
    by_cases hac : a = c
    · subst hac
      simp [otherWrite_readReg_same a v (otherWrites_keeps_wf ws hwf)]
    · rw [otherWrite_readReg_ne _ v hac, ih, List.lookup_cons, beq_false_of_ne hac]

/-- After the set-time sequence a register it writes reads as the last byte the sequence gives it. -/
theorem setTime_readReg {b : RegisterBlock} {s : State} (hwf : Memory.wf s.target.reg = true) {a : Addr} {v : Byte}
    (hv : (setTimeWrites b).reverse.lookup a = some v) : (setTime b s).readReg a = v := by
  rw [setTime, otherWrites_readReg _ hwf, hv, Option.getD_some]

/-- The time block reads back as the set-time sequence wrote it (70_reset_and_hazards R235). -/
theorem readTimeBlock_setTime (b : RegisterBlock) {s : State} (hwf : Memory.wf s.target.reg = true) :
    readTimeBlock (setTime b s) = b := by
  have hread {r : ChipRegister} {v : Byte} (hv : (setTimeWrites b).reverse.lookup (chipAddr r) = some v) :
      (setTime b s).readReg (chipAddr r) = v := setTime_readReg hwf hv
  exact (RegisterBlock.mk.injEq ..).mpr
    ⟨hread rfl, hread rfl, hread rfl, hread rfl, hread rfl, hread rfl, hread rfl, hread rfl⟩

/-! ### The obligations -/

/-- Settles O3: the step is the reset of the block, which reaches the register of a requested write only. -/
theorem heldInResetWhileRstIsHigh : Obligations.HeldInResetWhileRstIsHigh := by
  intro s hr
  obtain ⟨hready, hvalid, hreq⟩ := resetBlock_quiet s
  exact ⟨resetBlock s, step_rst hr, rfl, hready, hvalid, hreq, ⟨rfl, rfl, rfl⟩, rfl, rfl,
    resetBlock_sameRegisters, resetBlock_sameRegistersBut s⟩

/-- Settles O47: with no answer a get and a set stop at their requested read, waiting changes nothing, reset frees. -/
theorem unansweredTransactionHangs : Obligations.UnansweredTransactionHangs := by
  refine ⟨fun f s ho => ?get, fun f imm pat s ho hpat => ?set, fun s hr hp hreq ho => ?waits, fun s => ?freed⟩
  case get =>
    refine ⟨requestRead (.get f) s, ?_, requestRead_waits (.get f) s⟩
    rw [exec_getInstr, runGet, afterRead_requestRead_unanswered _ ho]
  case set =>
    refine ⟨requestRead (.set f pat) s, ?_, requestRead_waits (.set f pat) s⟩
    rw [exec_setInstr, runSet_of_option hpat, afterRead_requestRead_unanswered _ ho]
  case waits => rw [step_inFlight hr hp, resume_unanswered hreq (busAnswer_oracleWith hreq ho)]
  case freed => exact ⟨resetBlock (driveRst true s), step_rst rfl, resetBlock_quiet _⟩

/-- Settles O1. -/
theorem resetIsIdleAndQuiet : Obligations.ResetIsIdleAndQuiet :=
  ⟨rfl, rfl, rfl, rfl⟩

/-- Settles O2: at reset nothing is listed, requested, answered or seen. -/
theorem resetMeetsTheInvariant : Obligations.ResetMeetsTheInvariant where
  memory := reset_memory_wf
  ports := rfl
  status := by simp [State.reset]
  bus := by simp [State.reset]

/-- Settles O54: the order stands in the sequence, and no later write of it reaches a register of the time block. -/
theorem setTimeSequenceOrder : Obligations.SetTimeSequenceOrder :=
  ⟨fun _ => ⟨rfl, rfl⟩, fun b _ hwf => readTimeBlock_setTime b hwf⟩

end Sys2Proof.Machine
